-- ==== Sys2Proof/Word.lean ====
section
/-!
DEFINITION. The word types of the machine (00_scope.md R5, R7): bytes, 16-bit words, the fields of an
instruction word, register indices and framebuffer coordinates.
-/
namespace Sys2Proof

/-- An 8-bit value: a general register, a timer, a memory byte, the field `nn` (R5 `REG_W`, R81). -/
abbrev Byte := BitVec 8

/-- A 16-bit value: `pc`, `I`, a stack slot, an instruction word (R5 `PC_W`, `I_W`, `STACK_W`, `INSN_W`). -/
abbrev Word := BitVec 16

/-- A 4-bit field of an instruction word (R81). -/
abbrev Nibble := BitVec 4

/-- The 12-bit field `nnn` (R81). -/
abbrev Addr12 := BitVec 12

/-- The index of a general register, 0 to 15 (10_state.md R21: every index is in range). -/
abbrev RegIx := Fin 16

/-- A framebuffer column, 0 to 63 (44_display.md R200). -/
abbrev Col := Fin 64

/-- A framebuffer row, 0 to 31 (44_display.md R200). -/
abbrev Row := Fin 32

end Sys2Proof
end

