-- ==== Sys2Proof/Config.lean ====
section
/-!
DEFINITION. What an implementation fixes (00_scope.md R5), the parameter FONT with its default (R6(b),
10_state.md R38), and the one free value, the random byte of Cxnn (R6(c)).
-/
namespace Sys2Proof

/-- The number of memory bytes, addresses 0x000 to 0xFFF (R5 `MEM_SIZE`). -/
abbrev Config.memSize : Nat := 4096

/-- The program entry address and load offset (R5 `ENTRY`). -/
abbrev Config.entry : Nat := 0x200

/-- The largest program image, `MEM_SIZE - ENTRY` (R5 `MAX_IMAGE`). -/
abbrev Config.maxImage : Nat := 3584

/-- The bytes of one font glyph (R5 `GLYPH_BYTES`). -/
abbrev Config.glyphBytes : Nat := 5

/-- The number of return-stack slots (R5 `STACK_DEPTH`). -/
abbrev Config.stackDepth : Nat := 16

/-- The address of the font table (R5 `FONT_BASE`). -/
abbrev Config.fontBase : Nat := 0

/-- The parameter FONT: an array of 80 bytes (R6(b)). -/
abbrev Font := Vector Byte 80

/-- The default value of FONT (10_state.md R38), which the spec marks as general knowledge. PRESUMED, log
entry 2: a claim about glyphs names its font. -/
def Config.defaultFont : Font := #v[
  0xF0, 0x90, 0x90, 0x90, 0xF0,
  0x20, 0x60, 0x20, 0x20, 0x70,
  0xF0, 0x10, 0xF0, 0x80, 0xF0,
  0xF0, 0x10, 0xF0, 0x10, 0xF0,
  0x90, 0x90, 0xF0, 0x10, 0x10,
  0xF0, 0x80, 0xF0, 0x10, 0xF0,
  0xF0, 0x80, 0xF0, 0x90, 0xF0,
  0xF0, 0x10, 0x20, 0x40, 0x40,
  0xF0, 0x90, 0xF0, 0x90, 0xF0,
  0xF0, 0x90, 0xF0, 0x10, 0xF0,
  0xF0, 0x90, 0xF0, 0x90, 0x90,
  0xE0, 0x90, 0xE0, 0x90, 0xE0,
  0xF0, 0x80, 0x80, 0x80, 0xF0,
  0xE0, 0x90, 0x90, 0x90, 0xE0,
  0xF0, 0x80, 0xF0, 0x80, 0xF0,
  0xF0, 0x80, 0xF0, 0x80, 0x80]

/-- The free value of Cxnn: the draw of the k-th execution of RND, any byte, under no law
(42_alu.md R168, 92_eei_decisions.md D15; log entry 1). It has no body, so nothing can be proved of its
values. -/
opaque Config.draw : Nat → Byte

end Sys2Proof
end

