-- ==== Sys2Proof/Machine/State.lean ====
section
/-!
DEFINITION. The architectural state, exactly the record of 10_state.md R20 and one counter of the model's own
(`draws`, log entry 1), the fault record of 60_exceptions.md R241, memory's canonical form, and the state
after reset (10_state.md R37, 70_reset_and_hazards.md R280).
-/
namespace Sys2Proof.Machine

/-! ### Stops of the model -/

/-- Why a step of the model stops without a next state. The spec's own six faults are NOT here: taking one
is a next state in which the record is latched (`FaultCode`, `FaultRecord`; log entry 4). -/
inductive Fault where
  /-- Raised by CALL and RET when SP holds 17 to 31. The spec calls these values unreachable and gives no
  effect there (10_state.md R28). Safe: the model stops, and no state with SP at most 16 leads here. -/
  | stackPointerIllegal
  deriving DecidableEq, Repr

/-- Why the model gives an instruction no meaning. -/
inductive Refusal where
  /-- Raised by an arm of `exec` with no meaning yet, under the instruction's name. Safe: the model stops.
  Every instruction has its meaning, so nothing raises it. -/
  | notModelled (mnemonic : String)
  deriving DecidableEq, Repr

/-! ### The spec's faults -/

/-- The six kinds of fault (60_exceptions.md R240). -/
inductive FaultCode where
  /-- Code 1, by the fetch: pc + 1 is at least 4096 (40_cycle.md R101). -/
  | pcOutOfRange
  /-- Code 2, by the decode: the word matches no pattern (30_encoding.md R90). -/
  | decodeFault
  /-- Code 3, by 2nnn with SP = 16 (41_flow.md R123). -/
  | stackOverflow
  /-- Code 4, by 00EE with SP = 0 (41_flow.md R121). -/
  | stackUnderflow
  /-- Code 5, by Dxyn, Fx33, Fx55, Fx65: some address is at least 4096 (43_index_memory.md R186). -/
  | memoryOutOfRange
  /-- Code 6, by Ex9E, ExA1: V[x] is above 15 (45_timers_keypad.md R220, R221). -/
  | keyIndexOutOfRange
  deriving DecidableEq, Repr

/-- The numeric code of a fault (R240). -/
def FaultCode.number : FaultCode → Nat
  | .pcOutOfRange => 1
  | .decodeFault => 2
  | .stackOverflow => 3
  | .stackUnderflow => 4
  | .memoryOutOfRange => 5
  | .keyIndexOutOfRange => 6

/-- A fault record (60_exceptions.md R241). -/
structure FaultRecord where
  code : FaultCode
  /-- the address of the instruction whose tick faulted -/
  pc : Word
  /-- the instruction word, none for code 1 -/
  word : Option Word
  /-- for code 5 the lowest out-of-range address, else none -/
  addr : Option Nat
  /-- for code 6 the register value used as a key index, else none -/
  value : Option Byte
  deriving DecidableEq, Repr

/-! ### Memory as plain data -/

/-- The memory array `M` (20_memory.md R60): the bytes that differ from what an unlisted address reads as,
by strictly rising address. -/
abbrev Memory := List Host.Cell

/-- What an address with no entry reads as: the reset value of ordinary memory (20_memory.md R61). -/
def Memory.unlisted : Byte := 0x00

/-- The canonical form from address `lo` up: rising addresses inside the array, no entry that reads as
unlisted. -/
def Memory.wfFrom : Nat → Memory → Bool
  | _, [] => true
  | lo, (a, b) :: m =>
    decide (lo ≤ a) && decide (a < Config.memSize) && b != Memory.unlisted && Memory.wfFrom (a + 1) m

/-- Memory is in canonical form. -/
def Memory.wf (m : Memory) : Bool := Memory.wfFrom 0 m

/-- The canonical memory that holds the given bytes from address `a` up and reads as unlisted elsewhere. -/
def Memory.ofBytes : Nat → List Byte → Memory
  | _, [] => []
  | a, b :: bs =>
    if b = Memory.unlisted then Memory.ofBytes (a + 1) bs else (a, b) :: Memory.ofBytes (a + 1) bs

/-! ### The framebuffer as plain data -/

/-- The framebuffer `D`: 32 rows of 64 cells, row-major, true meaning lit (44_display.md R200). -/
abbrev Display := Vector (Vector Bool 64) 32

/-- Every cell unlit. -/
def Display.clear : Display := Vector.replicate 32 (Vector.replicate 64 false)

/-! ### The state -/

/-- The state of the core (10_state.md R20). -/
structure State where
  /-- `V[0..15]`, the general registers; index 15 is VF (R21, R22) -/
  v : Vector Byte 16
  /-- `I`, the index register (R26) -/
  i : Word
  /-- the program counter (R24) -/
  pc : Word
  /-- `S[0..15]`, the return stack (R27) -/
  stack : Vector Word 16
  /-- `SP`, the stack pointer, 0 to 16 (R28) -/
  sp : BitVec 5
  /-- `DT`, the delay timer (R29) -/
  dt : Byte
  /-- `ST`, the sound timer (R30) -/
  st : Byte
  /-- `K[0..15]`, the keypad latch, true meaning pressed (R31) -/
  keys : Vector Bool 16
  /-- `D`, the framebuffer (R32) -/
  display : Display
  /-- `M`, the memory (R33) -/
  mem : Memory
  /-- `FAULT`, the fault latch (R35) -/
  fault : Option FaultRecord
  /-- The model's own counter of executed Cxnn, which `Config.draw` is applied to (log entry 1). -/
  draws : Nat
  deriving DecidableEq, Repr

/-- The state after reset or construction of a core whose font table is `font` (10_state.md R37,
70_reset_and_hazards.md R280, R281). -/
def State.resetWith (font : Font) : State where
  v := Vector.replicate 16 0
  i := 0
  pc := BitVec.ofNat 16 Config.entry
  stack := Vector.replicate 16 0
  sp := 0
  dt := 0
  st := 0
  keys := Vector.replicate 16 false
  display := Display.clear
  mem := Memory.ofBytes Config.fontBase font.toList
  fault := none
  draws := 0

/-- The state right after reset, with the default FONT (10_state.md R38; log entry 2). -/
def State.reset : State := State.resetWith Config.defaultFont

end Sys2Proof.Machine
end

