-- ==== Sys2Proof/Machine/Flags.lean ====
section
/-!
DEFINITION. The 8-bit ALU: results and the flag values that go to VF (42_alu.md R150 to R153). Operands are
taken as unsigned integers, the result is exact, then narrowed (R166).
-/
namespace Sys2Proof.Machine

/-- `b2i`: 1 if the condition holds, else 0 (00_scope.md R8). -/
def b2i (c : Bool) : Byte := if c then 1 else 0

/-- Addition: the sum modulo 256 and the carry, 1 exactly when the sum is at least 256 (R150). -/
def add8 (a b : Byte) : Byte × Byte :=
  (BitVec.ofNat 8 (a.toNat + b.toNat), b2i (decide (256 ≤ a.toNat + b.toNat)))

/-- Subtraction: `(a - b) mod 256` and the not-borrow, 1 exactly when a is at least b (R151). -/
def sub8 (a b : Byte) : Byte × Byte :=
  (BitVec.ofNat 8 (a.toNat + 256 - b.toNat), b2i (decide (b.toNat ≤ a.toNat)))

/-- Logical shift right by one (R153). -/
def shr8 (a : Byte) : Byte := a >>> 1

/-- The bit a right shift shifts out, bit 0 (R153). -/
def shrOut (a : Byte) : Byte := b2i (a.getLsbD 0)

/-- Logical shift left by one, truncated to 8 bits (R153). -/
def shl8 (a : Byte) : Byte := a <<< 1

/-- The bit a left shift shifts out, bit 7 (R153). -/
def shlOut (a : Byte) : Byte := b2i (a.getLsbD 7)

end Sys2Proof.Machine
end

