-- ==== Sys2Proof/Syntax.lean ====
section
/-!
DEFINITION. The instructions: one constructor for each of the 35 rows of spec/opcode_table.json, in the
table's order (30_encoding.md R83). Fields are those of R81, named as the spec names them.
-/
namespace Sys2Proof

/-- The 35 instructions of 30_encoding.md R83. `x` and `y` are register indices, `nn` and `nnn` immediates,
`n` a sprite's height in rows. -/
inductive Instr where
  /-- 0000 NOP -/
  | nop
  /-- 00E0 CLS -/
  | cls
  /-- 00EE RET -/
  | ret
  /-- 1nnn JP nnn -/
  | jp (nnn : Addr12)
  /-- 2nnn CALL nnn -/
  | call (nnn : Addr12)
  /-- 3xnn SE Vx, nn -/
  | seImm (x : RegIx) (nn : Byte)
  /-- 4xnn SNE Vx, nn -/
  | sneImm (x : RegIx) (nn : Byte)
  /-- 5xy0 SE Vx, Vy -/
  | seReg (x y : RegIx)
  /-- 6xnn LD Vx, nn -/
  | ldImm (x : RegIx) (nn : Byte)
  /-- 7xnn ADD Vx, nn -/
  | addImm (x : RegIx) (nn : Byte)
  /-- 8xy0 LD Vx, Vy -/
  | ldReg (x y : RegIx)
  /-- 8xy1 OR Vx, Vy -/
  | or (x y : RegIx)
  /-- 8xy2 AND Vx, Vy -/
  | and (x y : RegIx)
  /-- 8xy3 XOR Vx, Vy -/
  | xor (x y : RegIx)
  /-- 8xy4 ADD Vx, Vy -/
  | addReg (x y : RegIx)
  /-- 8xy5 SUB Vx, Vy -/
  | sub (x y : RegIx)
  /-- 8xy6 SHR Vx; `y` is encoded and ignored (R89) -/
  | shr (x y : RegIx)
  /-- 8xy7 SUBN Vx, Vy -/
  | subn (x y : RegIx)
  /-- 8xyE SHL Vx; `y` is encoded and ignored (R89) -/
  | shl (x y : RegIx)
  /-- 9xy0 SNE Vx, Vy -/
  | sneReg (x y : RegIx)
  /-- Annn LD I, nnn -/
  | ldI (nnn : Addr12)
  /-- Bnnn JP V0, nnn -/
  | jpV0 (nnn : Addr12)
  /-- Cxnn RND Vx, nn -/
  | rnd (x : RegIx) (nn : Byte)
  /-- Dxyn DRW Vx, Vy, n -/
  | drw (x y : RegIx) (n : Nat)
  /-- Ex9E SKP Vx -/
  | skp (x : RegIx)
  /-- ExA1 SKNP Vx -/
  | sknp (x : RegIx)
  /-- Fx07 LD Vx, DT -/
  | ldVxDt (x : RegIx)
  /-- Fx0A LD Vx, K -/
  | ldK (x : RegIx)
  /-- Fx15 LD DT, Vx -/
  | ldDt (x : RegIx)
  /-- Fx18 LD ST, Vx -/
  | ldSt (x : RegIx)
  /-- Fx1E ADD I, Vx -/
  | addI (x : RegIx)
  /-- Fx29 LD F, Vx -/
  | ldF (x : RegIx)
  /-- Fx33 LD B, Vx -/
  | ldB (x : RegIx)
  /-- Fx55 LD [I], Vx -/
  | stRegs (x : RegIx)
  /-- Fx65 LD Vx, [I] -/
  | ldRegs (x : RegIx)
  deriving DecidableEq, Repr

end Sys2Proof
end

