-- ==== Sys2Proof/WellFormed.lean ====
section
/-!
DEFINITION. Which instruction terms an instruction word can hold. Register indices and immediates are in
range by their types (30_encoding.md R82); the one field held as a count, the sprite height `n`, is
checked here.
-/
namespace Sys2Proof

/-- The check on an instruction term: a sprite has 0 to 15 rows, since `n` is a 4-bit count (R82). -/
def wellFormed : Instr → Bool
  | .drw _ _ n => decide (n < 16)
  | .nop | .cls | .ret => true
  | .jp _ | .call _ | .ldI _ | .jpV0 _ => true
  | .seImm _ _ | .sneImm _ _ | .ldImm _ _ | .addImm _ _ | .rnd _ _ => true
  | .seReg _ _ | .sneReg _ _ | .ldReg _ _ | .or _ _ | .and _ _ | .xor _ _ => true
  | .addReg _ _ | .sub _ _ | .shr _ _ | .subn _ _ | .shl _ _ => true
  | .skp _ | .sknp _ | .ldVxDt _ | .ldK _ | .ldDt _ | .ldSt _ => true
  | .addI _ | .ldF _ | .ldB _ | .stRegs _ | .ldRegs _ => true

/-- An instruction term that some instruction word encodes. -/
abbrev Instr.WellFormed (i : Instr) : Prop := wellFormed i = true

end Sys2Proof
end

