-- ==== Sys2Proof/Decode.lean ====
section
/-!
DEFINITION. The decoder and the encoder (30_encoding.md R80 to R92), and the opcode map of R83 as a table.
-/
namespace Sys2Proof

/-! ### The fields of an instruction word (R81) -/

/-- The major opcode, `w[15:12]`. -/
def fieldO (w : Word) : Nibble := w.extractLsb' 12 4

/-- The first register index, `w[11:8]`. -/
def fieldX (w : Word) : RegIx := (w.extractLsb' 8 4).toFin

/-- The second register index, `w[7:4]`. -/
def fieldY (w : Word) : RegIx := (w.extractLsb' 4 4).toFin

/-- The 4-bit immediate or minor opcode, `w[3:0]`. -/
def fieldN (w : Word) : Nibble := w.extractLsb' 0 4

/-- The 8-bit immediate or minor opcode, `w[7:0]`. -/
def fieldNN (w : Word) : Byte := w.extractLsb' 0 8

/-- The 12-bit address, `w[11:0]`. -/
def fieldNNN (w : Word) : Addr12 := w.extractLsb' 0 12

/-! ### The decoder -/

/-- Why bytes are no instruction. -/
inductive DecodeError where
  /-- The word matches none of the 35 patterns (R90); the tick then faults `DecodeFault`. -/
  | invalid (w : Word)
  /-- Fewer than two bytes: no whole instruction word (R80). The fetch never offers such a list. -/
  | truncated
  deriving DecidableEq, Repr

/-- Major opcode 0: three exact words (R84). -/
def decodeMajor0 (w : Word) : Except DecodeError Instr :=
  if w = 0x0000 then .ok .nop
  else if w = 0x00E0 then .ok .cls
  else if w = 0x00EE then .ok .ret
  else .error (.invalid w)

/-- Majors 5 and 9: one instruction, with n = 0 (R85). -/
def decodeRegPair (w : Word) (i : Instr) : Except DecodeError Instr :=
  if fieldN w = 0 then .ok i else .error (.invalid w)

/-- Major opcode 8: nine instructions selected by n (R86). -/
def decodeMajor8 (w : Word) : Except DecodeError Instr :=
  match (fieldN w).toNat with
  | 0x0 => .ok (.ldReg (fieldX w) (fieldY w))
  | 0x1 => .ok (.or (fieldX w) (fieldY w))
  | 0x2 => .ok (.and (fieldX w) (fieldY w))
  | 0x3 => .ok (.xor (fieldX w) (fieldY w))
  | 0x4 => .ok (.addReg (fieldX w) (fieldY w))
  | 0x5 => .ok (.sub (fieldX w) (fieldY w))
  | 0x6 => .ok (.shr (fieldX w) (fieldY w))
  | 0x7 => .ok (.subn (fieldX w) (fieldY w))
  | 0xE => .ok (.shl (fieldX w) (fieldY w))
  | _ => .error (.invalid w)

/-- Major opcode E: two instructions selected by nn (R87). -/
def decodeMajorE (w : Word) : Except DecodeError Instr :=
  match (fieldNN w).toNat with
  | 0x9E => .ok (.skp (fieldX w))
  | 0xA1 => .ok (.sknp (fieldX w))
  | _ => .error (.invalid w)

/-- Major opcode F: nine instructions selected by nn (R88). -/
def decodeMajorF (w : Word) : Except DecodeError Instr :=
  match (fieldNN w).toNat with
  | 0x07 => .ok (.ldVxDt (fieldX w))
  | 0x0A => .ok (.ldK (fieldX w))
  | 0x15 => .ok (.ldDt (fieldX w))
  | 0x18 => .ok (.ldSt (fieldX w))
  | 0x1E => .ok (.addI (fieldX w))
  | 0x29 => .ok (.ldF (fieldX w))
  | 0x33 => .ok (.ldB (fieldX w))
  | 0x55 => .ok (.stRegs (fieldX w))
  | 0x65 => .ok (.ldRegs (fieldX w))
  | _ => .error (.invalid w)

/-- The decoder: total on the 65536 words, one of the 35 instructions or `invalid` by name
(R83; 40_cycle.md R102). -/
def decode (w : Word) : Except DecodeError Instr :=
  match (fieldO w).toNat with
  | 0x0 => decodeMajor0 w
  | 0x1 => .ok (.jp (fieldNNN w))
  | 0x2 => .ok (.call (fieldNNN w))
  | 0x3 => .ok (.seImm (fieldX w) (fieldNN w))
  | 0x4 => .ok (.sneImm (fieldX w) (fieldNN w))
  | 0x5 => decodeRegPair w (.seReg (fieldX w) (fieldY w))
  | 0x6 => .ok (.ldImm (fieldX w) (fieldNN w))
  | 0x7 => .ok (.addImm (fieldX w) (fieldNN w))
  | 0x8 => decodeMajor8 w
  | 0x9 => decodeRegPair w (.sneReg (fieldX w) (fieldY w))
  | 0xA => .ok (.ldI (fieldNNN w))
  | 0xB => .ok (.jpV0 (fieldNNN w))
  | 0xC => .ok (.rnd (fieldX w) (fieldNN w))
  | 0xD => .ok (.drw (fieldX w) (fieldY w) (fieldN w).toNat)
  | 0xE => decodeMajorE w
  | 0xF => decodeMajorF w
  | _ => .error (.invalid w)

/-- Two bytes as a word, the first byte in the high half (20_memory.md R65). -/
def wordOfBytes (hi lo : Byte) : Word := hi ++ lo

/-- The high byte of a word, the one at the lower address (20_memory.md R65). -/
def highByte (w : Word) : Byte := w.extractLsb' 8 8

/-- The low byte of a word. -/
def lowByte (w : Word) : Byte := w.extractLsb' 0 8

/-- The decoder on bytes as they lie in memory: the instruction and the bytes after it (R80, R65). -/
def decodeBytes : List Byte → Except DecodeError (Instr × List Byte)
  | hi :: lo :: rest =>
    match decode (wordOfBytes hi lo) with
    | .ok i => .ok (i, rest)
    | .error e => .error e
  | _ => .error .truncated

/-- The instruction the decoder reads from an instruction whose bits are `w`, bit 0 the least significant
bit of the (only) word; the bits from `nbits` up are 0. -/
def decodeTableWord (nbits w : Nat) : Option Instr :=
  let word : Word := BitVec.ofNat 16 (w % 2 ^ nbits)
  match decodeBytes [highByte word, lowByte word] with
  | .ok (i, _) => some i
  | .error _ => none

/-! ### The encoder -/

/-- A register index as a nibble. -/
def regNibble (x : RegIx) : Nibble := BitVec.ofFin x

/-- A word of form `o nnn` (R81). -/
def packNNN (o : Nibble) (nnn : Addr12) : Word := o ++ nnn

/-- A word of form `o x nn` (R81). -/
def packXNN (o : Nibble) (x : RegIx) (nn : Byte) : Word := (o ++ regNibble x : Byte) ++ nn

/-- A word of form `o x y n` (R81). -/
def packXYN (o : Nibble) (x y : RegIx) (n : Nibble) : Word :=
  (o ++ regNibble x : Byte) ++ (regNibble y ++ n : Byte)

/-- The word of an instruction, by the patterns of R83. -/
def encode : Instr → Word
  | .nop => 0x0000
  | .cls => 0x00E0
  | .ret => 0x00EE
  | .jp nnn => packNNN 0x1 nnn
  | .call nnn => packNNN 0x2 nnn
  | .seImm x nn => packXNN 0x3 x nn
  | .sneImm x nn => packXNN 0x4 x nn
  | .seReg x y => packXYN 0x5 x y 0x0
  | .ldImm x nn => packXNN 0x6 x nn
  | .addImm x nn => packXNN 0x7 x nn
  | .ldReg x y => packXYN 0x8 x y 0x0
  | .or x y => packXYN 0x8 x y 0x1
  | .and x y => packXYN 0x8 x y 0x2
  | .xor x y => packXYN 0x8 x y 0x3
  | .addReg x y => packXYN 0x8 x y 0x4
  | .sub x y => packXYN 0x8 x y 0x5
  | .shr x y => packXYN 0x8 x y 0x6
  | .subn x y => packXYN 0x8 x y 0x7
  | .shl x y => packXYN 0x8 x y 0xE
  | .sneReg x y => packXYN 0x9 x y 0x0
  | .ldI nnn => packNNN 0xA nnn
  | .jpV0 nnn => packNNN 0xB nnn
  | .rnd x nn => packXNN 0xC x nn
  | .drw x y n => packXYN 0xD x y (BitVec.ofNat 4 n)
  | .skp x => packXNN 0xE x 0x9E
  | .sknp x => packXNN 0xE x 0xA1
  | .ldVxDt x => packXNN 0xF x 0x07
  | .ldK x => packXNN 0xF x 0x0A
  | .ldDt x => packXNN 0xF x 0x15
  | .ldSt x => packXNN 0xF x 0x18
  | .addI x => packXNN 0xF x 0x1E
  | .ldF x => packXNN 0xF x 0x29
  | .ldB x => packXNN 0xF x 0x33
  | .stRegs x => packXNN 0xF x 0x55
  | .ldRegs x => packXNN 0xF x 0x65

/-! ### The opcode map of R83 as a table -/

/-- One row of the opcode map: a word w selects it when `w & mask = pattern` (R83). -/
structure OpcodeRow where
  mnemonic : String
  pattern : Word
  mask : Word
  deriving DecidableEq, Repr

/-- The row of the opcode map an instruction belongs to. -/
def Instr.row : Instr → OpcodeRow
  | .nop => ⟨"NOP", 0x0000, 0xFFFF⟩
  | .cls => ⟨"CLS", 0x00E0, 0xFFFF⟩
  | .ret => ⟨"RET", 0x00EE, 0xFFFF⟩
  | .jp _ => ⟨"JP", 0x1000, 0xF000⟩
  | .call _ => ⟨"CALL", 0x2000, 0xF000⟩
  | .seImm _ _ => ⟨"SE_IMM", 0x3000, 0xF000⟩
  | .sneImm _ _ => ⟨"SNE_IMM", 0x4000, 0xF000⟩
  | .seReg _ _ => ⟨"SE_REG", 0x5000, 0xF00F⟩
  | .ldImm _ _ => ⟨"LD_IMM", 0x6000, 0xF000⟩
  | .addImm _ _ => ⟨"ADD_IMM", 0x7000, 0xF000⟩
  | .ldReg _ _ => ⟨"LD_REG", 0x8000, 0xF00F⟩
  | .or _ _ => ⟨"OR", 0x8001, 0xF00F⟩
  | .and _ _ => ⟨"AND", 0x8002, 0xF00F⟩
  | .xor _ _ => ⟨"XOR", 0x8003, 0xF00F⟩
  | .addReg _ _ => ⟨"ADD_REG", 0x8004, 0xF00F⟩
  | .sub _ _ => ⟨"SUB", 0x8005, 0xF00F⟩
  | .shr _ _ => ⟨"SHR", 0x8006, 0xF00F⟩
  | .subn _ _ => ⟨"SUBN", 0x8007, 0xF00F⟩
  | .shl _ _ => ⟨"SHL", 0x800E, 0xF00F⟩
  | .sneReg _ _ => ⟨"SNE_REG", 0x9000, 0xF00F⟩
  | .ldI _ => ⟨"LD_I", 0xA000, 0xF000⟩
  | .jpV0 _ => ⟨"JP_V0", 0xB000, 0xF000⟩
  | .rnd _ _ => ⟨"RND", 0xC000, 0xF000⟩
  | .drw _ _ _ => ⟨"DRW", 0xD000, 0xF000⟩
  | .skp _ => ⟨"SKP", 0xE09E, 0xF0FF⟩
  | .sknp _ => ⟨"SKNP", 0xE0A1, 0xF0FF⟩
  | .ldVxDt _ => ⟨"LD_VX_DT", 0xF007, 0xF0FF⟩
  | .ldK _ => ⟨"LD_K", 0xF00A, 0xF0FF⟩
  | .ldDt _ => ⟨"LD_DT", 0xF015, 0xF0FF⟩
  | .ldSt _ => ⟨"LD_ST", 0xF018, 0xF0FF⟩
  | .addI _ => ⟨"ADD_I", 0xF01E, 0xF0FF⟩
  | .ldF _ => ⟨"LD_F", 0xF029, 0xF0FF⟩
  | .ldB _ => ⟨"LD_B", 0xF033, 0xF0FF⟩
  | .stRegs _ => ⟨"ST_REGS", 0xF055, 0xF0FF⟩
  | .ldRegs _ => ⟨"LD_REGS", 0xF065, 0xF0FF⟩

/-- One instruction of each row, in the table's order; only its row is used. -/
def rowSamples : List Instr :=
  [.nop, .cls, .ret, .jp 0, .call 0, .seImm 0 0, .sneImm 0 0, .seReg 0 0, .ldImm 0 0, .addImm 0 0] ++
  [.ldReg 0 0, .or 0 0, .and 0 0, .xor 0 0, .addReg 0 0, .sub 0 0, .shr 0 0, .subn 0 0, .shl 0 0] ++
  [.sneReg 0 0, .ldI 0, .jpV0 0, .rnd 0 0, .drw 0 0 0, .skp 0, .sknp 0] ++
  [.ldVxDt 0, .ldK 0, .ldDt 0, .ldSt 0, .addI 0, .ldF 0, .ldB 0, .stRegs 0, .ldRegs 0]

/-- The opcode map of R83: its 35 rows, in its order. -/
def opcodeTable : List OpcodeRow := rowSamples.map Instr.row

end Sys2Proof
end

