-- ==== Sys2Proof/Machine/Ops.lean ====
section
/-!
DEFINITION. The named operations over memory, registers, stack and pc; fetching an instruction; and taking a
fault, the one shared operation every fault goes through (40_cycle.md R104). There is no return from a fault:
only the host's `reset` leaves the faulted state (60_exceptions.md R246; Machine/HostCommands.lean).
-/
namespace Sys2Proof.Machine

/-- The outcomes of a meaning and of a step. -/
abbrev StepOutcome := Host.Outcome State Fault Refusal

/-! ### Memory (20_memory.md R60 to R70) -/

/-- `MemRead(a, 1)`: the byte at an address (00_scope.md R10). It is defined for addresses below 4096, and
every caller checks that first (R67). -/
def Memory.read : Memory → Nat → Byte
  | [], _ => Memory.unlisted
  | (a', b) :: m, a => if a = a' then b else Memory.read m a

/-- Put a byte at its place in the rising list, keeping no entry that reads as unlisted. -/
def Memory.insert : Memory → Nat → Byte → Memory
  | [], a, b => if b = Memory.unlisted then [] else [(a, b)]
  | (a', b') :: m, a, b =>
    if a < a' then
      if b = Memory.unlisted then (a', b') :: m else (a, b) :: (a', b') :: m
    else if a = a' then
      if b = Memory.unlisted then m else (a, b) :: m
    else (a', b') :: Memory.insert m a b

/-- `MemWrite(a, 1, b)` (00_scope.md R10). It is defined for addresses below 4096, and every caller checks
that first (R67); the guard keeps every list this can make inside the array. -/
def Memory.write (m : Memory) (a : Nat) (b : Byte) : Memory :=
  if a < Config.memSize then m.insert a b else m

/-- `n` single-byte reads at ascending addresses from `a` (R64). -/
def Memory.readBytes (m : Memory) (a : Nat) : Nat → List Byte
  | 0 => []
  | n + 1 => m.read a :: Memory.readBytes m (a + 1) n

/-- Single-byte writes at ascending addresses from `a` (R64). -/
def Memory.writeBytes (m : Memory) (a : Nat) : List Byte → Memory
  | [] => m
  | b :: bs => Memory.writeBytes (m.write a b) (a + 1) bs

/-! ### Registers, timers, memory and framebuffer of a state -/

/-- Read general register `V[x]` (10_state.md R21). -/
def State.getV (s : State) (x : RegIx) : Byte := s.v[x.val]

/-- Write general register `V[x]` (10_state.md R21). -/
def State.setV (s : State) (x : RegIx) (b : Byte) : State := { s with v := s.v.set x.val b }

/-- The index of VF, the flag register (10_state.md R22). -/
abbrev vf : RegIx := 15

/-- Write the flag register VF (10_state.md R22). -/
def State.setVF (s : State) (b : Byte) : State := s.setV vf b

/-- Write consecutive registers from index `k` up; a list running past VF has no register left to go to. -/
def setRegs (v : Vector Byte 16) (k : Nat) : List Byte → Vector Byte 16
  | [] => v
  | b :: bs => setRegs (v.setIfInBounds k b) (k + 1) bs

/-- Write the registers V0, V1, ... from a list of bytes, in order (43_index_memory.md R185). -/
def State.setVs (s : State) (bs : List Byte) : State := { s with v := setRegs s.v 0 bs }

/-- The values of V0 to V[x] (43_index_memory.md R184). -/
def State.regsUpTo (s : State) (x : RegIx) : List Byte := s.v.toList.take (x.val + 1)

/-- Write the index register (10_state.md R26). -/
def State.setI (s : State) (w : Word) : State := { s with i := w }

/-- Write the program counter (10_state.md R24). -/
def State.setPc (s : State) (w : Word) : State := { s with pc := w }

/-- Write the delay timer (10_state.md R29). -/
def State.setDt (s : State) (b : Byte) : State := { s with dt := b }

/-- Write the sound timer (10_state.md R30). -/
def State.setSt (s : State) (b : Byte) : State := { s with st := b }

/-- Write the framebuffer (10_state.md R32). -/
def State.setDisplay (s : State) (d : Display) : State := { s with display := d }

/-- Write memory (10_state.md R33). -/
def State.setMem (s : State) (m : Memory) : State := { s with mem := m }

/-- Read keypad flag `K[k]` (10_state.md R31). -/
def State.key (s : State) (k : Fin 16) : Bool := s.keys[k.val]

/-- The byte of the next draw, and the counter moved past it (42_alu.md R168; log entry 1). -/
def State.nextDraw (s : State) : Byte := Config.draw s.draws

/-- Count one draw as taken (log entry 1). -/
def State.countDraw (s : State) : State := { s with draws := s.draws + 1 }

/-! ### The program counter (10_state.md R25) -/

/-- The fetch's advance of pc by 2, modulo 2^16 (40_cycle.md R101, R106). -/
def State.advance (s : State) : State := s.setPc (s.pc + 2)

/-- The address of the executing instruction: pc already stands 2 past it (40_cycle.md R107). -/
def State.ownAddress (s : State) : Word := s.pc - 2

/-- Skip the next instruction word if the condition holds (00_scope.md R11). -/
def State.skipIf (s : State) (c : Bool) : State := if c then s.setPc (s.pc + 2) else s

/-! ### The return stack (10_state.md R27, R28) -/

/-- `S[k]`, for a slot number below 16. -/
def State.slot (s : State) (k : Fin 16) : Word := s.stack[k.val]

/-- Push: write the slot at the pointer, then increment the pointer. -/
def State.push (s : State) (k : Fin 16) (w : Word) : State :=
  { s with stack := s.stack.set k.val w, sp := s.sp + 1 }

/-- Pop: decrement the pointer, then take the slot it names, `k`, into pc. The slot is not cleared. -/
def State.popPc (s : State) (k : Fin 16) : State :=
  { s with sp := s.sp - 1, pc := s.slot k }

/-! ### Taking a fault (40_cycle.md R104, 60_exceptions.md R241, R245) -/

/-- Commit a fault: every element keeps the value it has in `s0`, the state at the start of the tick, and
FAULT takes the record (R104). -/
def State.commitFault (s0 : State) (r : FaultRecord) : State := { s0 with fault := some r }

/-- The state at the start of the tick, seen from an instruction that has written nothing yet: the fetch has
only advanced pc (R103). -/
def State.tickStart (s : State) : State := s.setPc s.ownAddress

/-- The record of a fault the executing instruction `i` raises: its own address and word (R241). -/
def State.execRecord (s : State) (i : Instr) (code : FaultCode) (addr : Option Nat) (value : Option Byte) :
    FaultRecord :=
  { code := code, pc := s.ownAddress, word := some (encode i), addr := addr, value := value }

/-- Raise a fault from an instruction: a next state, in which the record is latched and every other element is
as at the start of the tick (R104). -/
def raise (i : Instr) (code : FaultCode) (addr : Option Nat) (value : Option Byte) (s : State) : StepOutcome :=
  .next (s.tickStart.commitFault (s.execRecord i code addr value))

/-! ### Fetch and decode (40_cycle.md R101, R102) -/

/-- The fetch's range check: both bytes of the word are inside memory (R101). -/
def State.fetchInRange (s : State) : Bool := decide (s.pc.toNat + 1 < Config.memSize)

/-- The 16-bit word at pc, big-endian (R101, 20_memory.md R65). -/
def State.fetchWord (s : State) : Word :=
  wordOfBytes (s.mem.read s.pc.toNat) (s.mem.read (s.pc.toNat + 1))

/-- Fetch and decode: the instruction at pc, or the record of the fault this raises (R101, R102). -/
def State.fetchDecode (s : State) : Except FaultRecord Instr :=
  if s.fetchInRange then
    match decode s.fetchWord with
    | .ok i => .ok i
    | .error _ =>
      .error { code := .decodeFault, pc := s.pc, word := some s.fetchWord, addr := none, value := none }
  else .error { code := .pcOutOfRange, pc := s.pc, word := none, addr := none, value := none }

end Sys2Proof.Machine
end

