-- ==== Sys2Proof/Machine/Operands.lean ====
section
/-!
DEFINITION. Operand forms: zero-extended immediates (30_encoding.md R82), the one data addressing mode I + k
with its range check (43_index_memory.md R186, 20_memory.md R67), decimal digits, the key operand, and the
pixels of a sprite (44_display.md R202).
-/
namespace Sys2Proof.Machine

/-! ### Immediates -/

/-- `zext_16(nnn)` (30_encoding.md R82). -/
def zextAddr (nnn : Addr12) : Word := nnn.setWidth 16

/-- `zext_16(V[x])` (41_flow.md R128, 43_index_memory.md R181). -/
def zextByte (b : Byte) : Word := b.setWidth 16

/-! ### Memory operands -/

/-- The effective address of byte `k` of an access, on unbounded integers (20_memory.md R63). -/
def State.ea (s : State) (k : Nat) : Nat := s.i.toNat + k

/-- The range check of an access to the `n` bytes from I: the lowest address that is not in memory, if there
is one (20_memory.md R67; 43_index_memory.md R183 to R185; 44_display.md R202). -/
def State.blockFault (s : State) (n : Nat) : Option Nat :=
  if 0 < n ∧ Config.memSize ≤ s.ea (n - 1) then some (max s.i.toNat Config.memSize) else none

/-! ### Decimal digits (43_index_memory.md R183) -/

/-- The hundreds, tens and ones digits of a byte, in the order they are stored. -/
def bcdDigits (b : Byte) : List Byte :=
  [BitVec.ofNat 8 (b.toNat / 100), BitVec.ofNat 8 (b.toNat / 10 % 10), BitVec.ofNat 8 (b.toNat % 10)]

/-! ### Keys (45_timers_keypad.md R220 to R223) -/

/-- A register value as a key index, if it is one: 0 to 15. -/
def keyIndex (b : Byte) : Option (Fin 16) := if h : b.toNat < 16 then some ⟨b.toNat, h⟩ else none

/-- The lowest pressed key, if any key is pressed: the indices are scanned in ascending order (R223). -/
def State.lowestKey (s : State) : Option Nat := s.keys.toList.findIdx? id

/-! ### Framebuffer cells and sprites (44_display.md R200, R202) -/

/-- `D[c, r]` (R200). -/
def Display.lit (d : Display) (c : Col) (r : Row) : Bool := d[r.val][c.val]

/-- `D[c, r] <- not D[c, r]`. -/
def Display.toggle (d : Display) (c : Col) (r : Row) : Display :=
  d.set r.val (d[r.val].set c.val (!d.lit c r))

/-- Column `(cx + b) mod 64` (R202). -/
def spriteCol (cx : Byte) (b : Nat) : Col := Fin.ofNat 64 (cx.toNat + b)

/-- Row `(cy + r) mod 32` (R202). -/
def spriteRow (cy : Byte) (r : Nat) : Row := Fin.ofNat 32 (cy.toNat + r)

/-- The cells of one sprite row: pixel b is bit 7 - b of the byte (R202). -/
def rowPixels (cx : Byte) (row : Row) (byte : Byte) : List (Col × Row) :=
  [0, 1, 2, 3, 4, 5, 6, 7].filterMap fun b =>
    if byte.getLsbD (7 - b) then some (spriteCol cx b, row) else none

/-- The cells of the set bits of a sprite whose rows from number `r` on are given, in drawing order. -/
def spritePixels (cx cy : Byte) : Nat → List Byte → List (Col × Row)
  | _, [] => []
  | r, byte :: rows => rowPixels cx (spriteRow cy r) byte ++ spritePixels cx cy (r + 1) rows

/-- XOR pixels onto the framebuffer one by one, recording whether a lit cell went unlit (R202). -/
def drawPixels : Display → Bool → List (Col × Row) → Display × Bool
  | d, collision, [] => (d, collision)
  | d, collision, (c, r) :: ps => drawPixels (d.toggle c r) (collision || d.lit c r) ps

/-- XOR a sprite onto the framebuffer: the new framebuffer and the collision flag (R202). -/
def Display.draw (d : Display) (cx cy : Byte) (rows : List Byte) : Display × Bool :=
  drawPixels d false (spritePixels cx cy 0 rows)

end Sys2Proof.Machine
end

