-- ==== Sys2Proof/Machine/Alu.lean ====
section
/-!
DEFINITION. Register and ALU instructions (42_alu.md R150 to R168). The operands are read before the first
write. Where VF is written beside `V[x]`, the two writes come in the order of R154, which matters when x = 15.
-/
namespace Sys2Proof.Machine

/-- 6xnn LD Vx, nn (R155). -/
def execLdImm (x : RegIx) (nn : Byte) (s : State) : StepOutcome := .next (s.setV x nn)

/-- 7xnn ADD Vx, nn: wrapping, no flag (R156). -/
def execAddImm (x : RegIx) (nn : Byte) (s : State) : StepOutcome :=
  .next (s.setV x (add8 (s.getV x) nn).1)

/-- 8xy0 LD Vx, Vy (R157). -/
def execLdReg (x y : RegIx) (s : State) : StepOutcome := .next (s.setV x (s.getV y))

/-- 8xy1 OR Vx, Vy (R158, R152). -/
def execOr (x y : RegIx) (s : State) : StepOutcome := .next (s.setV x (s.getV x ||| s.getV y))

/-- 8xy2 AND Vx, Vy (R159, R152). -/
def execAnd (x y : RegIx) (s : State) : StepOutcome := .next (s.setV x (s.getV x &&& s.getV y))

/-- 8xy3 XOR Vx, Vy (R160, R152). -/
def execXor (x y : RegIx) (s : State) : StepOutcome := .next (s.setV x (s.getV x ^^^ s.getV y))

/-- Write `V[x]`, then VF: the order of 8xy4, 8xy5 and 8xy7 (R154). -/
def State.setResultThenFlag (s : State) (x : RegIx) (r : Byte × Byte) : State := (s.setV x r.1).setVF r.2

/-- 8xy4 ADD Vx, Vy: VF is the carry (R161, R150). -/
def execAddReg (x y : RegIx) (s : State) : StepOutcome :=
  .next (s.setResultThenFlag x (add8 (s.getV x) (s.getV y)))

/-- 8xy5 SUB Vx, Vy: VF is the not-borrow (R162, R151). -/
def execSub (x y : RegIx) (s : State) : StepOutcome :=
  .next (s.setResultThenFlag x (sub8 (s.getV x) (s.getV y)))

/-- 8xy6 SHR Vx: VF first, then `V[x]` is shifted in place; `y` is ignored (R163, R154, 30_encoding.md R89). -/
def execShr (x _y : RegIx) (s : State) : StepOutcome :=
  let s1 := s.setVF (shrOut (s.getV x))
  .next (s1.setV x (shr8 (s1.getV x)))

/-- 8xy7 SUBN Vx, Vy: Vy minus Vx, VF is the not-borrow (R164, R151). -/
def execSubn (x y : RegIx) (s : State) : StepOutcome :=
  .next (s.setResultThenFlag x (sub8 (s.getV y) (s.getV x)))

/-- 8xyE SHL Vx: VF first, then `V[x]` is shifted in place; `y` is ignored (R165, R154, 30_encoding.md R89). -/
def execShl (x _y : RegIx) (s : State) : StepOutcome :=
  let s1 := s.setVF (shlOut (s.getV x))
  .next (s1.setV x (shl8 (s1.getV x)))

/-- Cxnn RND Vx, nn: a fresh free byte, masked (R168; log entry 1). -/
def execRnd (x : RegIx) (nn : Byte) (s : State) : StepOutcome :=
  .next (s.countDraw.setV x (s.nextDraw &&& nn))

end Sys2Proof.Machine
end

