-- ==== Sys2Proof/Machine/IndexMemory.lean ====
section
/-!
DEFINITION. Index register and memory instructions (43_index_memory.md R180 to R186). No access changes I.
Every address is checked before the first byte moves.
-/
namespace Sys2Proof.Machine

/-- Annn LD I, nnn (R180). -/
def execLdI (nnn : Addr12) (s : State) : StepOutcome := .next (s.setI (zextAddr nnn))

/-- Fx1E ADD I, Vx: wrapping at 16 bits, no flag (R181). -/
def execAddI (x : RegIx) (s : State) : StepOutcome := .next (s.setI (s.i + zextByte (s.getV x)))

/-- Fx29 LD F, Vx: I is 5 times the whole register (R182). -/
def execLdF (x : RegIx) (s : State) : StepOutcome :=
  .next (s.setI (BitVec.ofNat 16 ((s.getV x).toNat * Config.glyphBytes)))

/-- Run a meaning that accesses the `n` bytes from I, or raise `MemoryOutOfRange` with the lowest bad address
and nothing done (R186, 20_memory.md R67). -/
def withBlock (i : Instr) (n : Nat) (s : State) (k : State) : StepOutcome :=
  match s.blockFault n with
  | some a => raise i .memoryOutOfRange (some a) none s
  | none => .next k

/-- Fx33 LD B, Vx (R183). -/
def execLdB (x : RegIx) (s : State) : StepOutcome :=
  withBlock (.ldB x) 3 s (s.setMem (s.mem.writeBytes (s.ea 0) (bcdDigits (s.getV x))))

/-- Fx55 LD [I], Vx (R184). -/
def execStRegs (x : RegIx) (s : State) : StepOutcome :=
  withBlock (.stRegs x) (x.val + 1) s (s.setMem (s.mem.writeBytes (s.ea 0) (s.regsUpTo x)))

/-- Fx65 LD Vx, [I] (R185). -/
def execLdRegs (x : RegIx) (s : State) : StepOutcome :=
  withBlock (.ldRegs x) (x.val + 1) s (s.setVs (s.mem.readBytes (s.ea 0) (x.val + 1)))

end Sys2Proof.Machine
end

