-- ==== Sys2Proof/Machine/DisplayInstr.lean ====
section
/-!
DEFINITION. The two instructions that change the framebuffer (44_display.md R201, R202).
-/
namespace Sys2Proof.Machine

/-- 00E0 CLS (R201). -/
def execCls (s : State) : StepOutcome := .next (s.setDisplay Display.clear)

/-- The effect of a draw whose sprite is in range: XOR the rows at I onto the framebuffer at (V[x], V[y]), then
VF is the collision flag (R202). The coordinates are read before VF is written. -/
def State.drawSprite (s : State) (x y : RegIx) (n : Nat) : State :=
  let drawn := s.display.draw (s.getV x) (s.getV y) (s.mem.readBytes (s.ea 0) n)
  (s.setDisplay drawn.1).setVF (b2i drawn.2)

/-- Dxyn DRW Vx, Vy, n (R202). -/
def execDrw (x y : RegIx) (n : Nat) (s : State) : StepOutcome :=
  withBlock (.drw x y n) n s (s.drawSprite x y n)

end Sys2Proof.Machine
end

