-- ==== Sys2Proof/Machine/Flow.lean ====
section
/-!
DEFINITION. Control flow (41_flow.md R120 to R129): NOP, RET, JP, CALL, the compare skips, JP V0. A meaning
starts after the fetch, with pc 2 past the instruction (40_cycle.md R103).
-/
namespace Sys2Proof.Machine

/-- 0000 NOP (R120). -/
def execNop (s : State) : StepOutcome := .next s

/-- 00EE RET (R121). SP from 17 to 31 has no effect in the spec (10_state.md R28; log entry 3). -/
def execRet (s : State) : StepOutcome :=
  if s.sp = 0 then raise .ret .stackUnderflow none none s
  else if h : s.sp.toNat - 1 < 16 then .next (s.popPc ⟨s.sp.toNat - 1, h⟩)
  else .fault .stackPointerIllegal

/-- 1nnn JP nnn (R122). -/
def execJp (nnn : Addr12) (s : State) : StepOutcome := .next (s.setPc (zextAddr nnn))

/-- 2nnn CALL nnn (R123). SP from 17 to 31 has no effect in the spec (10_state.md R28; log entry 3). -/
def execCall (nnn : Addr12) (s : State) : StepOutcome :=
  if s.sp = 16 then raise (.call nnn) .stackOverflow none none s
  else if h : s.sp.toNat < 16 then .next ((s.push ⟨s.sp.toNat, h⟩ s.pc).setPc (zextAddr nnn))
  else .fault .stackPointerIllegal

/-- 3xnn SE Vx, nn (R124). -/
def execSeImm (x : RegIx) (nn : Byte) (s : State) : StepOutcome := .next (s.skipIf (s.getV x == nn))

/-- 4xnn SNE Vx, nn (R125). -/
def execSneImm (x : RegIx) (nn : Byte) (s : State) : StepOutcome := .next (s.skipIf (s.getV x != nn))

/-- 5xy0 SE Vx, Vy (R126). -/
def execSeReg (x y : RegIx) (s : State) : StepOutcome := .next (s.skipIf (s.getV x == s.getV y))

/-- 9xy0 SNE Vx, Vy (R127). -/
def execSneReg (x y : RegIx) (s : State) : StepOutcome := .next (s.skipIf (s.getV x != s.getV y))

/-- Bnnn JP V0, nnn (R128). -/
def execJpV0 (nnn : Addr12) (s : State) : StepOutcome :=
  .next (s.setPc (zextByte (s.getV 0) + zextAddr nnn))

end Sys2Proof.Machine
end

