-- ==== Sys2Proof/Machine/KeypadTimers.lean ====
section
/-!
DEFINITION. Keypad and timer instructions (45_timers_keypad.md R220 to R225).
-/
namespace Sys2Proof.Machine

/-- Ex9E SKP Vx (R220). -/
def execSkp (x : RegIx) (s : State) : StepOutcome :=
  match keyIndex (s.getV x) with
  | some k => .next (s.skipIf (s.key k))
  | none => raise (.skp x) .keyIndexOutOfRange none (some (s.getV x)) s

/-- ExA1 SKNP Vx (R221). -/
def execSknp (x : RegIx) (s : State) : StepOutcome :=
  match keyIndex (s.getV x) with
  | some k => .next (s.skipIf (!s.key k))
  | none => raise (.sknp x) .keyIndexOutOfRange none (some (s.getV x)) s

/-- Fx07 LD Vx, DT (R222). -/
def execLdVxDt (x : RegIx) (s : State) : StepOutcome := .next (s.setV x s.dt)

/-- Fx0A LD Vx, K: the lowest pressed key, or re-execute at the next tick (R223). -/
def execLdK (x : RegIx) (s : State) : StepOutcome :=
  match s.lowestKey with
  | some k => .next (s.setV x (BitVec.ofNat 8 k))
  | none => .next (s.setPc s.ownAddress)

/-- Fx15 LD DT, Vx (R224). -/
def execLdDt (x : RegIx) (s : State) : StepOutcome := .next (s.setDt (s.getV x))

/-- Fx18 LD ST, Vx (R225). -/
def execLdSt (x : RegIx) (s : State) : StepOutcome := .next (s.setSt (s.getV x))

end Sys2Proof.Machine
end

