-- ==== Sys2Proof/Machine/Step.lean ====
section
/-!
DEFINITION. One tick (40_cycle.md R100 to R104, section 3): the fault latch, fetch, decode, execute.
-/
namespace Sys2Proof.Machine

/-- One tick. Under a latched fault nothing happens (R100). A fetch or decode fault is latched (R101, R102,
R104). Else the decoded instruction runs from the state the fetch leaves (R103). -/
def step (s : State) : Host.Outcome State Fault Refusal :=
  match s.fault with
  | some _ => .next s
  | none =>
    match s.fetchDecode with
    | .error r => .next (s.commitFault r)
    | .ok i => exec i s.advance

/-- `s` with the instruction whose bits are `w` placed where the next fetch reads, high byte first, so that the
next step runs it. The fetch needs no fault latched and pc below 0x0FFF: the latch is cleared, and a pc out of
range is set to the entry address (log entry 7). Neither changes the state after reset. -/
def State.withFetchWord (s : State) (nbits w : Nat) : State :=
  let word : Word := BitVec.ofNat 16 (w % 2 ^ nbits)
  let pc := if s.fetchInRange then s.pc else BitVec.ofNat 16 Config.entry
  { s with
    pc := pc
    fault := none
    mem := s.mem.writeBytes pc.toNat [highByte word, lowByte word] }

end Sys2Proof.Machine
end

