-- ==== Sys2Proof/Machine/HostCommands.lean ====
section
/-!
DEFINITION. The block's whole interface, six atomic host commands (60_exceptions.md R254), and sequences of
them (R255). `tick` is `step`. A command that touches FONT takes it as an argument (00_scope.md R6(b)).
-/
namespace Sys2Proof.Machine

/-- The six host commands with their arguments (R254). -/
inductive Command where
  | load (bytes : List Byte)
  | reset
  | tick
  | tickTimers
  | getDisplay
  | keypress (index : Nat) (pressed : Bool)
  deriving DecidableEq, Repr

/-- What a command returns to the host (R254). -/
inductive Reply where
  /-- `reset` returns nothing -/
  | done
  /-- `tick`, `load` or `keypress` succeeded -/
  | ok
  /-- `tick` faulted, or a fault was latched before it (40_cycle.md R100, R108) -/
  | fault (r : FaultRecord)
  /-- `load` of an image above 3584 bytes (R247; 70_reset_and_hazards.md R284) -/
  | imageTooLarge
  /-- `keypress` with an index above 15 (R247, R252) -/
  | keyArgOutOfRange
  /-- the beep request of `tick_timers` (R251) -/
  | beep (request : Bool)
  /-- the cells of `get_display`, row-major (R253) -/
  | cells (d : List Bool)
  deriving DecidableEq, Repr

/-- `load(bytes)` (70_reset_and_hazards.md R283, R284). -/
def State.load (s : State) (bytes : List Byte) : State × Reply :=
  if bytes.length ≤ Config.maxImage then (s.setMem (s.mem.writeBytes Config.entry bytes), .ok)
  else (s, .imageTooLarge)

/-- `reset()` (70_reset_and_hazards.md R280). The model's own draw counter goes on, so that no draw after the
reset is tied to one before it (log entry 9). -/
def State.resetCommand (font : Font) (s : State) : State × Reply :=
  ({ State.resetWith font with draws := s.draws }, .done)

/-- The result of a tick: `ok` or the record that FAULT holds after it (40_cycle.md R100, R104, R108). -/
def State.tickReply (s : State) : Reply :=
  match s.fault with
  | none => .ok
  | some r => .fault r

/-- One 8-bit down-counter's tick: down by 1 if above zero (60_exceptions.md R250). -/
def countDown (t : Byte) : Byte := if t = 0 then 0 else t - 1

/-- `tick_timers()` (60_exceptions.md R250, R251). -/
def State.tickTimers (s : State) : State × Reply :=
  ((s.setDt (countDown s.dt)).setSt (countDown s.st), .beep (s.st == 1))

/-- The 2048 cells in row-major order (44_display.md R200). -/
def Display.cells (d : Display) : List Bool := (d.toList.map Vector.toList).flatten

/-- `get_display()` (60_exceptions.md R253). -/
def State.getDisplay (s : State) : State × Reply := (s, .cells s.display.cells)

/-- `keypress(index, pressed)` (60_exceptions.md R252). -/
def State.keypress (s : State) (index : Nat) (pressed : Bool) : State × Reply :=
  if h : index < 16 then ({ s with keys := s.keys.set index pressed }, .ok) else (s, .keyArgOutOfRange)

/-- One host command on a core whose font table is `font`: the state and the reply, or the stop of a tick. -/
def command (font : Font) (c : Command) (s : State) : Host.Outcome (State × Reply) Fault Refusal :=
  match c with
  | .load bytes => .next (s.load bytes)
  | .reset => .next (s.resetCommand font)
  | .tick =>
    match step s with
    | .next t => .next (t, t.tickReply)
    | .fault r => .fault r
    | .refused r => .refused r
  | .tickTimers => .next s.tickTimers
  | .getDisplay => .next s.getDisplay
  | .keypress index pressed => .next (s.keypress index pressed)

/-- A sequence of host commands, one completing before the next starts (R255), with the replies in order. -/
def runCommands (font : Font) : List Command → State → Host.Outcome (State × List Reply) Fault Refusal
  | [], s => .next (s, [])
  | c :: cs, s =>
    match command font c s with
    | .next (t, reply) =>
      match runCommands font cs t with
      | .next (u, replies) => .next (u, reply :: replies)
      | .fault r => .fault r
      | .refused r => .refused r
    | .fault r => .fault r
    | .refused r => .refused r

end Sys2Proof.Machine
end

