-- ==== Sys2Proof/Safety.lean ====
section
/-!
DEFINITION. The terms claims are stated in: the invariants of the machine, what it is for a state to keep a part
of another (frames), the state a fault leaves, what a fetch reads at an address, which cells a sprite covers, and
what it is for a row of the opcode map to decode to an instruction.
-/
namespace Sys2Proof.Machine

/-! ### Invariants -/

/-- A fault record has the fields 60_exceptions.md R241 gives its code, and no others. -/
def FaultRecord.WellShaped (r : FaultRecord) : Prop :=
  match r.code with
  | .pcOutOfRange => r.word = none ∧ r.addr = none ∧ r.value = none
  | .decodeFault | .stackOverflow | .stackUnderflow =>
    (∃ w, r.word = some w) ∧ r.addr = none ∧ r.value = none
  | .memoryOutOfRange =>
    (∃ w, r.word = some w) ∧ (∃ a, r.addr = some a ∧ Config.memSize ≤ a) ∧ r.value = none
  | .keyIndexOutOfRange =>
    (∃ w, r.word = some w) ∧ r.addr = none ∧ (∃ v, r.value = some v ∧ 15 < v.toNat)

/-- The machine's invariant: memory is canonical, SP is a legal value (10_state.md R28), and a latched record is
one R241 describes. -/
structure State.Inv (s : State) : Prop where
  mem : s.mem.wf = true
  sp : s.sp.toNat ≤ Config.stackDepth
  fault : ∀ r, s.fault = some r → r.WellShaped

/-- The bound on pc in every reachable state (40_cycle.md R106), with the bound on the stack that carries it:
a pushed address is at most 0x1000. -/
structure State.PcBound (s : State) : Prop where
  pc : s.pc.toNat ≤ 0x10FE
  stack : ∀ k, (s.slot k).toNat ≤ 0x1000

/-! ### The state a fault leaves -/

/-- `s`, as the fetch left it, with a fault of its instruction committed: pc back at the instruction and the
record latched (40_cycle.md R104, 60_exceptions.md R241). -/
def State.faulted (s : State) (code : FaultCode) (word : Word) (addr : Option Nat) (value : Option Byte) :
    State :=
  { s with pc := s.pc - 2, fault := some { code, pc := s.pc - 2, word := some word, addr, value } }

/-- `t` is what a fault of instruction `i` leaves of `s`, with some code and some extra fields of its record. -/
def FaultsTo (i : Instr) (s t : State) : Prop := ∃ code addr value, t = s.faulted code (encode i) addr value

/-! ### Fetching a byte -/

/-- A fetch by `s` whose word takes in address `a` reads `b` there: as the high byte of the word at pc = `a`, as the
low byte of the word at pc = `a` - 1 (20_memory.md R65). -/
def FetchesAt (s : State) (a : Nat) (b : Byte) : Prop :=
  (s.pc.toNat = a → highByte s.fetchWord = b) ∧ (s.pc.toNat + 1 = a → lowByte s.fetchWord = b)

/-! ### Frames -/

/-- Every general register but those named keeps its value. -/
def KeepsRegsBut (P : RegIx → Prop) (s t : State) : Prop := ∀ k, ¬ P k → t.getV k = s.getV k

/-- Every general register keeps its value. -/
def KeepsRegs (s t : State) : Prop := ∀ k, t.getV k = s.getV k

/-- The stack pointer and every stack slot keep their values. -/
def KeepsStack (s t : State) : Prop := t.sp = s.sp ∧ ∀ k, t.slot k = s.slot k

/-- Both timers keep their values. -/
def KeepsTimers (s t : State) : Prop := t.dt = s.dt ∧ t.st = s.st

/-- Every keypad flag keeps its value. -/
def KeepsKeys (s t : State) : Prop := ∀ k, t.key k = s.key k

/-- Every framebuffer cell keeps its value. -/
def KeepsDisplay (s t : State) : Prop := ∀ c r, t.display.lit c r = s.display.lit c r

/-- Every byte of memory keeps its value. -/
def KeepsMemory (s t : State) : Prop := ∀ a, t.mem.read a = s.mem.read a

/-- Every byte of memory outside the `n` bytes from address `a` keeps its value. -/
def KeepsMemoryOutside (a n : Nat) (s t : State) : Prop :=
  ∀ b, b < a ∨ a + n ≤ b → t.mem.read b = s.mem.read b

/-- Every element outside the register file, pc and the fault latch keeps its value. -/
def KeepsAllButRegs (s t : State) : Prop :=
  t.i = s.i ∧ KeepsStack s t ∧ KeepsTimers s t ∧ KeepsKeys s t ∧ KeepsDisplay s t ∧ KeepsMemory s t ∧
    t.draws = s.draws

/-! ### Sprites -/

/-- Some set bit of the `n`-row sprite at address `a` lands on cell (c, r) when the sprite is drawn at
(cx, cy): pixel b of row k, bit 7 - b of its byte, lands on column (cx + b) mod 64 and row (cy + k) mod 32
(44_display.md R202). -/
def SpriteCovers (m : Memory) (a : Nat) (cx cy : Byte) (n : Nat) (c : Col) (r : Row) : Prop :=
  ∃ k b : Nat, k < n ∧ b < 8 ∧ (m.read (a + k)).getLsbD (7 - b) = true ∧
    c.val = (cx.toNat + b) % 64 ∧ r.val = (cy.toNat + k) % 32

/-! ### Rows of the opcode map -/

/-- Every word with the fixed bits of a row decodes to that row's instruction, its operands read from the
word (30_encoding.md R83). -/
def Decodes (mask pattern : Word) (build : Word → Instr) : Prop :=
  ∀ w, w &&& mask = pattern → decode w = .ok (build w)

end Sys2Proof.Machine
end

