-- ==== Sys2Proof/Certificates/Slice0/Obligations.lean ====
section
/-!
DEFINITION. The statements for the provers. Each docstring names the rules of spec/ a statement rests on. Meanings
start from the state the fetch leaves (pc two past the instruction, 40_cycle.md R103), so in a statement about
`exec` the state `s` has `s.pc` = the instruction's address plus 2.
-/
open Sys2Proof Sys2Proof.Machine

/-! ### Encoding (30_encoding.md) -/

/-- R81: the fields of an instruction word, as numbers. -/
def Obligations.FieldsOfInstructionWord : Prop :=
  ∀ w : Word,
    (fieldO w).toNat = w.toNat / 4096 ∧ (fieldX w).val = w.toNat / 256 % 16 ∧
      (fieldY w).val = w.toNat / 16 % 16 ∧ (fieldN w).toNat = w.toNat % 16 ∧
      (fieldNN w).toNat = w.toNat % 256 ∧ (fieldNNN w).toNat = w.toNat % 4096

/-- R83, R82: decoding the word of a well-formed instruction gives the instruction back, every operand at every
value. -/
def Obligations.DecodeOfEncodeIsIdentity : Prop :=
  ∀ i : Instr, i.WellFormed → decode (encode i) = .ok i

/-- R83, R91: what a word decodes to is well-formed and is encoded as that word, so no bit of a valid word is
dropped and no two words mean the same instruction term. -/
def Obligations.EncodeOfDecodeIsIdentity : Prop :=
  ∀ (w : Word) (i : Instr), decode w = .ok i → i.WellFormed ∧ encode i = w

/-- R83: the opcode map has 35 rows; a word has the fixed bits of a row exactly when it decodes to an instruction
of that row; a word with the fixed bits of no row decodes to `invalid`. -/
def Obligations.DecodeFollowsOpcodeMap : Prop :=
  opcodeTable.length = 35 ∧
    (∀ (w : Word) (row : OpcodeRow), row ∈ opcodeTable →
      (w &&& row.mask = row.pattern ↔ ∃ i, decode w = .ok i ∧ i.row = row)) ∧
    ∀ w : Word, (∀ row ∈ opcodeTable, w &&& row.mask ≠ row.pattern) → decode w = .error (.invalid w)

/-- R84 to R88: the words of majors 0, 5, 8, 9, E and F that decode to `invalid`. -/
def Obligations.InvalidWordsPerMajor : Prop :=
  ∀ w : Word,
    (fieldO w = 0x0 → w ≠ 0x0000 → w ≠ 0x00E0 → w ≠ 0x00EE → decode w = .error (.invalid w)) ∧
      (fieldO w = 0x5 ∨ fieldO w = 0x9 → fieldN w ≠ 0x0 → decode w = .error (.invalid w)) ∧
      (fieldO w = 0x8 → fieldN w ∈ [0x8, 0x9, 0xA, 0xB, 0xC, 0xD, 0xF] → decode w = .error (.invalid w)) ∧
      (fieldO w = 0xE → fieldNN w ≠ 0x9E → fieldNN w ≠ 0xA1 → decode w = .error (.invalid w)) ∧
      (fieldO w = 0xF → fieldNN w ∉ [0x07, 0x0A, 0x15, 0x18, 0x1E, 0x29, 0x33, 0x55, 0x65] →
        decode w = .error (.invalid w))

/-- R83: words written out from the encodings, one of each family, decode to the instructions they stand for. -/
def Obligations.SampleWordsDecode : Prop :=
  decode 0x00EE = .ok .ret ∧ decode 0x2ABC = .ok (.call 0xABC) ∧ decode 0x3A2B = .ok (.seImm 0xA 0x2B) ∧
    decode 0x8124 = .ok (.addReg 1 2) ∧ decode 0xC30F = .ok (.rnd 3 0x0F) ∧
    decode 0xD015 = .ok (.drw 0 1 5) ∧ decode 0xE59E = .ok (.skp 5) ∧ decode 0xF21E = .ok (.addI 2) ∧
    decode 0xF355 = .ok (.stRegs 3) ∧ decode 0x5121 = .error (.invalid 0x5121)

/-! ### The cycle (40_cycle.md) -/

/-- R101, R102, R103: with no fault latched and pc in range, when the word at pc decodes to an instruction, a step
is `exec` of it at the state with pc advanced by 2. -/
def Obligations.StepRunsTheDecodedInstruction : Prop :=
  ∀ (s : State) (i : Instr), s.fault = none → s.pc.toNat + 1 < 4096 → decode s.fetchWord = .ok i →
    step s = exec i { s with pc := s.pc + 2 }

/-- R100: under a latched fault a tick changes nothing and returns the record, and no command but `reset` leaves
that state. -/
def Obligations.LatchedFaultStopsTheCore : Prop :=
  ∀ (font : Font) (s : State) (r : FaultRecord), s.fault = some r →
    step s = .next s ∧ command font .tick s = .next (s, .fault r) ∧
      ∀ (c : Command) (t : State) (reply : Reply), c ≠ .reset → command font c s = .next (t, reply) →
        t.fault = some r

/-- R101: the fetch reads two bytes big-endian and advances pc by 2, or, with pc at or above 0x0FFF, latches
`PcOutOfRange` with no word and changes nothing else (R104). -/
def Obligations.FetchReadsWordOrFaults : Prop :=
  ∀ s : State, s.fault = none →
    (s.pc.toNat + 1 < 4096 →
      s.fetchWord.toNat = (s.mem.read s.pc.toNat).toNat * 256 + (s.mem.read (s.pc.toNat + 1)).toNat ∧
        ∀ i, decode s.fetchWord = .ok i → step s = exec i { s with pc := s.pc + 2 }) ∧
      (4096 ≤ s.pc.toNat + 1 →
        step s = .next { s with fault := some ⟨.pcOutOfRange, s.pc, none, none, none⟩ })

/-- R90, R102: a fetched word that selects no row of the opcode map latches `DecodeFault` with the word and the
instruction's address, and changes nothing else. -/
def Obligations.InvalidWordLatchesDecodeFault : Prop :=
  ∀ s : State, s.fault = none → s.pc.toNat + 1 < 4096 →
    (∀ row ∈ opcodeTable, s.fetchWord &&& row.mask ≠ row.pattern) →
    decode s.fetchWord = .error (.invalid s.fetchWord) ∧
      step s = .next { s with fault := some ⟨.decodeFault, s.pc, some s.fetchWord, none, none⟩ } ∧
      FaultCode.decodeFault.number = 2

/-- R104: a tick that raises a fault, at the fetch, the decode or the execution, keeps every element at its value
at the start of the tick, pc included, and latches the record, which the host gets as the result. -/
def Obligations.FaultingTickChangesOnlyTheLatch : Prop :=
  ∀ (font : Font) (s t : State) (r : FaultRecord), s.fault = none → step s = .next t → t.fault = some r →
    t = { s with fault := some r } ∧ command font .tick s = .next (t, .fault r)

/-- R241: the fields of the record a tick latches. -/
def Obligations.FaultRecordFields : Prop :=
  ∀ (s t : State) (r : FaultRecord), s.fault = none → step s = .next t → t.fault = some r →
    1 ≤ r.code.number ∧ r.code.number ≤ 6 ∧ r.pc = s.pc ∧
      r.word = (if r.code = .pcOutOfRange then none else some s.fetchWord) ∧
      r.addr = (if r.code = .memoryOutOfRange then some (max s.i.toNat 4096) else none) ∧
      r.value = (if r.code = .keyIndexOutOfRange then some (s.getV (fieldX s.fetchWord)) else none)

/-- R240, R242: the number of each of the six codes; and a tick latches a code only where its instruction and its
condition are those of the table. (R242 is marked by the spec as its own inference.) -/
def Obligations.FaultCodesOnlyWhereTheTableSays : Prop :=
  (FaultCode.pcOutOfRange.number = 1 ∧ FaultCode.decodeFault.number = 2 ∧ FaultCode.stackOverflow.number = 3 ∧
      FaultCode.stackUnderflow.number = 4 ∧ FaultCode.memoryOutOfRange.number = 5 ∧
      FaultCode.keyIndexOutOfRange.number = 6) ∧
    ∀ (s t : State) (r : FaultRecord), s.fault = none → step s = .next t → t.fault = some r →
      match r.code with
      | .pcOutOfRange => 4096 ≤ s.pc.toNat + 1
      | .decodeFault => decode s.fetchWord = .error (.invalid s.fetchWord)
      | .stackOverflow => s.sp = 16 ∧ ∃ nnn, decode s.fetchWord = .ok (.call nnn)
      | .stackUnderflow => s.sp = 0 ∧ decode s.fetchWord = .ok .ret
      | .memoryOutOfRange =>
        (∃ x y n, decode s.fetchWord = .ok (.drw x y n) ∧ 0 < n ∧ 4096 ≤ s.i.toNat + n - 1) ∨
          (∃ x, decode s.fetchWord = .ok (.ldB x) ∧ 4096 ≤ s.i.toNat + 2) ∨
          (∃ x, decode s.fetchWord = .ok (.stRegs x) ∧ 4096 ≤ s.i.toNat + x.val) ∨
          ∃ x, decode s.fetchWord = .ok (.ldRegs x) ∧ 4096 ≤ s.i.toNat + x.val
      | .keyIndexOutOfRange =>
        ∃ x, (decode s.fetchWord = .ok (.skp x) ∨ decode s.fetchWord = .ok (.sknp x)) ∧ 15 < (s.getV x).toNat

/-- R242 (the spec's own inference): the 27 instructions other than 2nnn, 00EE, Dxyn, Fx33, Fx55, Fx65, Ex9E and
ExA1 always complete and leave the fault latch alone. -/
def Obligations.TwentySevenInstructionsNeverFault : Prop :=
  ∀ (i : Instr) (s : State),
    i.row.mnemonic ∉ ["CALL", "RET", "DRW", "LD_B", "ST_REGS", "LD_REGS", "SKP", "SKNP"] →
    ∃ t, exec i s = .next t ∧ t.fault = s.fault

/-- R28, R103, R104: with SP at most 16 a step always answers a next state; the model never stops there. -/
def Obligations.StepAnswersNextWhenSpIsLegal : Prop :=
  ∀ s : State, s.sp.toNat ≤ 16 → ∃ t, step s = .next t

/-! ### Invariants -/

/-- R37: the invariant holds after reset, whatever the font table. -/
def Obligations.InvariantHoldsAtReset : Prop :=
  State.reset.Inv ∧ ∀ font : Font, (State.resetWith font).Inv

/-- R28, R60, R241: every step keeps the invariant: canonical memory, SP at most 16, a record of the form R241
gives. -/
def Obligations.StepKeepsInvariant : Prop :=
  ∀ s t : State, s.Inv → step s = .next t → t.Inv

/-- R254: every host command keeps the invariant. -/
def Obligations.EveryCommandKeepsInvariant : Prop :=
  ∀ (font : Font) (c : Command) (s t : State) (reply : Reply), s.Inv → command font c s = .next (t, reply) →
    t.Inv

/-- R106 (the spec's own inference), as an invariant of every step from every state that has it: pc at most 0x10FE,
every stack slot at most 0x1000. -/
def Obligations.StepKeepsPcBound : Prop :=
  ∀ s t : State, s.PcBound → step s = .next t → t.PcBound

/-- R106 (the spec's own inference), with R28 and R255: from reset, every sequence of host commands runs to its end,
whatever the font table, and leaves a state with pc at most 0x10FE that meets the invariant. -/
def Obligations.EveryCommandSequenceCompletesWithinPcBound : Prop :=
  ∀ (font : Font) (cs : List Command), ∃ (t : State) (replies : List Reply),
    runCommands font cs (State.resetWith font) = .next (t, replies) ∧ replies.length = cs.length ∧
      t.pc.toNat ≤ 0x10FE ∧ t.Inv

/-! ### Reset (10_state.md, 70_reset_and_hazards.md) -/

/-- R37: the value of every element of the state a core is constructed in, for every FONT; and the command `reset`
leaves that state, from any state (but for the model's own draw counter, which no rule speaks of). -/
def Obligations.ResetValues : Prop :=
  ∀ font : Font,
    (∀ s, ∃ t, command font .reset s = .next (t, .done) ∧ t = { State.resetWith font with draws := t.draws }) ∧
    (∀ k, (State.resetWith font).getV k = 0) ∧ (State.resetWith font).i = 0 ∧
      (State.resetWith font).pc = 0x0200 ∧ (∀ k, (State.resetWith font).slot k = 0) ∧
      (State.resetWith font).sp = 0 ∧ (State.resetWith font).dt = 0 ∧ (State.resetWith font).st = 0 ∧
      (∀ k, (State.resetWith font).key k = false) ∧
      (∀ c r, (State.resetWith font).display.lit c r = false) ∧
      (∀ k : Fin 80, (State.resetWith font).mem.read k.val = font[k.val]) ∧
      (∀ a, 0x050 ≤ a → a < 4096 → (State.resetWith font).mem.read a = 0) ∧
      (State.resetWith font).fault = none

/-- R280, R281: `reset` from any state gives the state after reset and nothing else. That the model's own draw
counter goes on is the model's choice (log entry 9). -/
def Obligations.ResetCommandRestoresEverything : Prop :=
  ∀ (font : Font) (s : State),
    command font .reset s = .next ({ State.resetWith font with draws := s.draws }, .done)

/-! ### Control flow (41_flow.md) -/

/-- R120, R122, R128: NOP, JP and JP V0 change pc and nothing else: not at all, to nnn, to V0 + nnn, which never
wraps. -/
def Obligations.NopAndJumpsSetPc : Prop :=
  Decodes 0xFFFF 0x0000 (fun _ => .nop) ∧ Decodes 0xF000 0x1000 (fun w => .jp (fieldNNN w)) ∧
    Decodes 0xF000 0xB000 (fun w => .jpV0 (fieldNNN w)) ∧
    ∀ (nnn : Addr12) (s : State),
      exec .nop s = .next s ∧
        (∃ t, exec (.jp nnn) s = .next t ∧ t = { s with pc := t.pc } ∧ t.pc.toNat = nnn.toNat) ∧
        ∃ t, exec (.jpV0 nnn) s = .next t ∧ t = { s with pc := t.pc } ∧
          t.pc.toNat = (s.getV 0).toNat + nnn.toNat

/-- R121: RET with SP = k + 1 takes SP to k and pc to slot k, and changes nothing else; with SP = 0 it latches
`StackUnderflow`. -/
def Obligations.RetPopsPcOrUnderflows : Prop :=
  Decodes 0xFFFF 0x00EE (fun _ => .ret) ∧
    (∀ (s : State) (k : Fin 16), s.sp.toNat = k.val + 1 →
      ∃ t, exec .ret s = .next t ∧ t = { s with sp := t.sp, pc := t.pc } ∧ t.sp.toNat = k.val ∧
        t.pc = s.slot k) ∧
    ∀ s : State, s.sp = 0 → exec .ret s = .next (s.faulted .stackUnderflow 0x00EE none none)

/-- R123: CALL with SP = k below 16 writes pc, the address after it, to slot k, takes SP to k + 1 and pc to nnn, and
changes nothing else; with SP = 16 it latches `StackOverflow`. -/
def Obligations.CallPushesPcOrOverflows : Prop :=
  Decodes 0xF000 0x2000 (fun w => .call (fieldNNN w)) ∧
    (∀ (nnn : Addr12) (s : State) (k : Fin 16), s.sp.toNat = k.val →
      ∃ t, exec (.call nnn) s = .next t ∧ t = { s with stack := t.stack, sp := t.sp, pc := t.pc } ∧
        t.slot k = s.pc ∧ (∀ j, j ≠ k → t.slot j = s.slot j) ∧ t.sp.toNat = k.val + 1 ∧
        t.pc.toNat = nnn.toNat) ∧
    ∀ (nnn : Addr12) (s : State), s.sp = 16 →
      exec (.call nnn) s = .next (s.faulted .stackOverflow (encode (.call nnn)) none none)

/-- R28 and log entry 3 (the model's choice): with SP at 17 to 31, which the spec calls unreachable, CALL and RET stop
by name. -/
def Obligations.CallAndRetStopOnUnreachableSp : Prop :=
  ∀ (nnn : Addr12) (s : State), 16 < s.sp.toNat →
    exec .ret s = .fault .stackPointerIllegal ∧ exec (.call nnn) s = .fault .stackPointerIllegal

/-- R107, R121, R123: a call, then any code that leaves the stack and SP as the call left them, then a return resumes
at the address after the call, with SP as before it. -/
def Obligations.CallThenRetResumesAfterTheCall : Prop :=
  ∀ (nnn : Addr12) (s : State), s.sp.toNat < 16 →
    ∃ t, exec (.call nnn) s = .next t ∧
      ∀ u : State, u.sp = t.sp → (∀ k, u.slot k = t.slot k) →
        ∃ v, exec .ret u = .next v ∧ v.pc = s.pc ∧ v.sp = s.sp

/-- R124 to R127: SE and SNE, with an immediate or a register, add 2 to pc exactly when V[x] equals, or differs from,
the other operand, and change nothing else. -/
def Obligations.CompareSkips : Prop :=
  Decodes 0xF000 0x3000 (fun w => .seImm (fieldX w) (fieldNN w)) ∧
    Decodes 0xF000 0x4000 (fun w => .sneImm (fieldX w) (fieldNN w)) ∧
    Decodes 0xF00F 0x5000 (fun w => .seReg (fieldX w) (fieldY w)) ∧
    Decodes 0xF00F 0x9000 (fun w => .sneReg (fieldX w) (fieldY w)) ∧
    ∀ (x y : RegIx) (nn : Byte) (s : State),
      exec (.seImm x nn) s = .next { s with pc := if s.getV x = nn then s.pc + 2 else s.pc } ∧
        exec (.sneImm x nn) s = .next { s with pc := if s.getV x = nn then s.pc else s.pc + 2 } ∧
        exec (.seReg x y) s = .next { s with pc := if s.getV x = s.getV y then s.pc + 2 else s.pc } ∧
        exec (.sneReg x y) s = .next { s with pc := if s.getV x = s.getV y then s.pc else s.pc + 2 }

/-! ### Registers and ALU (42_alu.md) -/

/-- R155, R156: LD Vx, nn and ADD Vx, nn write V[x], the sum modulo 256, and nothing else: VF only when x = 15. -/
def Obligations.ImmediateLoadAndAdd : Prop :=
  Decodes 0xF000 0x6000 (fun w => .ldImm (fieldX w) (fieldNN w)) ∧
    Decodes 0xF000 0x7000 (fun w => .addImm (fieldX w) (fieldNN w)) ∧
    ∀ (x : RegIx) (nn : Byte) (s : State),
      (∃ t, exec (.ldImm x nn) s = .next t ∧ t = { s with v := t.v } ∧ t.getV x = nn ∧
        ∀ k, k ≠ x → t.getV k = s.getV k) ∧
      ∃ t, exec (.addImm x nn) s = .next t ∧ t = { s with v := t.v } ∧
        (t.getV x).toNat = ((s.getV x).toNat + nn.toNat) % 256 ∧ ∀ k, k ≠ x → t.getV k = s.getV k

/-- R157 to R160: LD, OR, AND and XOR of registers write V[x], bit by bit, and nothing else: VF only when x = 15. -/
def Obligations.CopyAndLogic : Prop :=
  Decodes 0xF00F 0x8000 (fun w => .ldReg (fieldX w) (fieldY w)) ∧
    Decodes 0xF00F 0x8001 (fun w => .or (fieldX w) (fieldY w)) ∧
    Decodes 0xF00F 0x8002 (fun w => .and (fieldX w) (fieldY w)) ∧
    Decodes 0xF00F 0x8003 (fun w => .xor (fieldX w) (fieldY w)) ∧
    ∀ (x y : RegIx) (s : State),
      (∃ t, exec (.ldReg x y) s = .next t ∧ t = { s with v := t.v } ∧ t.getV x = s.getV y ∧
        ∀ k, k ≠ x → t.getV k = s.getV k) ∧
      (∃ t, exec (.or x y) s = .next t ∧ t = { s with v := t.v } ∧
        (∀ b, (t.getV x).getLsbD b = ((s.getV x).getLsbD b || (s.getV y).getLsbD b)) ∧
        ∀ k, k ≠ x → t.getV k = s.getV k) ∧
      (∃ t, exec (.and x y) s = .next t ∧ t = { s with v := t.v } ∧
        (∀ b, (t.getV x).getLsbD b = ((s.getV x).getLsbD b && (s.getV y).getLsbD b)) ∧
        ∀ k, k ≠ x → t.getV k = s.getV k) ∧
      ∃ t, exec (.xor x y) s = .next t ∧ t = { s with v := t.v } ∧
        (∀ b, (t.getV x).getLsbD b = ((s.getV x).getLsbD b ^^ (s.getV y).getLsbD b)) ∧
        ∀ k, k ≠ x → t.getV k = s.getV k

/-- R150, R161, R154: ADD Vx, Vy: VF is 1 exactly when the sum of the old values is at least 256, and V[x], unless it
is VF, the sum modulo 256. -/
def Obligations.AddRegistersWithCarry : Prop :=
  Decodes 0xF00F 0x8004 (fun w => .addReg (fieldX w) (fieldY w)) ∧
    ∀ (x y : RegIx) (s : State), ∃ t, exec (.addReg x y) s = .next t ∧ t = { s with v := t.v } ∧
      t.getV 15 = (if 256 ≤ (s.getV x).toNat + (s.getV y).toNat then 1 else 0) ∧
      (x ≠ 15 → (t.getV x).toNat = ((s.getV x).toNat + (s.getV y).toNat) % 256) ∧
      ∀ k, k ≠ x → k ≠ 15 → t.getV k = s.getV k

/-- R151, R162, R164, R154: SUB and SUBN: VF is 0 exactly when the subtraction of the old values borrows, and V[x],
unless it is VF, the difference modulo 256. -/
def Obligations.SubtractWithNotBorrow : Prop :=
  Decodes 0xF00F 0x8005 (fun w => .sub (fieldX w) (fieldY w)) ∧
    Decodes 0xF00F 0x8007 (fun w => .subn (fieldX w) (fieldY w)) ∧
    ∀ (x y : RegIx) (s : State),
      (∃ t, exec (.sub x y) s = .next t ∧ t = { s with v := t.v } ∧
        t.getV 15 = (if (s.getV x).toNat < (s.getV y).toNat then 0 else 1) ∧
        (x ≠ 15 → (t.getV x).toNat = ((s.getV x).toNat + 256 - (s.getV y).toNat) % 256) ∧
        ∀ k, k ≠ x → k ≠ 15 → t.getV k = s.getV k) ∧
      ∃ t, exec (.subn x y) s = .next t ∧ t = { s with v := t.v } ∧
        t.getV 15 = (if (s.getV y).toNat < (s.getV x).toNat then 0 else 1) ∧
        (x ≠ 15 → (t.getV x).toNat = ((s.getV y).toNat + 256 - (s.getV x).toNat) % 256) ∧
        ∀ k, k ≠ x → k ≠ 15 → t.getV k = s.getV k

/-- R153, R154, R163, R165: SHR and SHL for every y: with x other than 15, VF is the bit shifted out and V[x] the
logical shift of its old value; with x = 15 VF ends as 0 for SHR and as twice its old bit 7 for SHL. The next state
does not depend on y. -/
def Obligations.ShiftsByOne : Prop :=
  Decodes 0xF00F 0x8006 (fun w => .shr (fieldX w) (fieldY w)) ∧
    Decodes 0xF00F 0x800E (fun w => .shl (fieldX w) (fieldY w)) ∧
    ∀ (x : RegIx) (s : State),
      (∃ t, (∀ y, exec (.shr x y) s = .next t) ∧ t = { s with v := t.v } ∧
        (x ≠ 15 → (t.getV x).toNat = (s.getV x).toNat / 2 ∧ (t.getV 15).toNat = (s.getV x).toNat % 2) ∧
        (x = 15 → t.getV 15 = 0) ∧ ∀ k, k ≠ x → k ≠ 15 → t.getV k = s.getV k) ∧
      ∃ t, (∀ y, exec (.shl x y) s = .next t) ∧ t = { s with v := t.v } ∧
        (x ≠ 15 → (t.getV x).toNat = (s.getV x).toNat * 2 % 256 ∧
          (t.getV 15).toNat = (s.getV x).toNat / 128) ∧
        (x = 15 → (t.getV 15).toNat = 2 * ((s.getV 15).toNat / 128)) ∧
        ∀ k, k ≠ x → k ≠ 15 → t.getV k = s.getV k

/-- R168: RND writes a fresh free byte masked by nn to V[x] and no other register; bits outside the mask are 0. The
free byte is `Config.draw` at the model's own counter, which moves on by one (log entry 1, the model's choice);
nothing is said of its value. -/
def Obligations.RandomByteIsMasked : Prop :=
  Decodes 0xF000 0xC000 (fun w => .rnd (fieldX w) (fieldNN w)) ∧
    ∀ (x : RegIx) (nn : Byte) (s : State), ∃ t, exec (.rnd x nn) s = .next t ∧
      t = { s with v := t.v, draws := s.draws + 1 } ∧ t.getV x = Config.draw s.draws &&& nn ∧
      (∀ b, nn.getLsbD b = false → (t.getV x).getLsbD b = false) ∧ ∀ k, k ≠ x → t.getV k = s.getV k

/-! ### Index register and memory (43_index_memory.md) -/

/-- R180, R181, R182: LD I, ADD I and LD F write I and nothing else: nnn; the sum modulo 2^16, VF untouched; 5 times
the whole register. -/
def Obligations.IndexRegisterWrites : Prop :=
  Decodes 0xF000 0xA000 (fun w => .ldI (fieldNNN w)) ∧ Decodes 0xF0FF 0xF01E (fun w => .addI (fieldX w)) ∧
    Decodes 0xF0FF 0xF029 (fun w => .ldF (fieldX w)) ∧
    ∀ (nnn : Addr12) (x : RegIx) (s : State),
      (∃ t, exec (.ldI nnn) s = .next t ∧ t = { s with i := t.i } ∧ t.i.toNat = nnn.toNat) ∧
      (∃ t, exec (.addI x) s = .next t ∧ t = { s with i := t.i } ∧
        t.i.toNat = (s.i.toNat + (s.getV x).toNat) % 65536) ∧
      ∃ t, exec (.ldF x) s = .next t ∧ t = { s with i := t.i } ∧ t.i.toNat = (s.getV x).toNat * 5

/-- R183, R186: LD B in range stores the hundreds, tens and ones digits of V[x] at I, I + 1 and I + 2 and changes
nothing else; out of range it latches `MemoryOutOfRange` with the lowest bad address and stores nothing. -/
def Obligations.DecimalDigitsAreStored : Prop :=
  Decodes 0xF0FF 0xF033 (fun w => .ldB (fieldX w)) ∧
    (∀ (x : RegIx) (s : State), s.mem.wf = true → s.i.toNat + 2 < 4096 →
      ∃ t, exec (.ldB x) s = .next t ∧ t = { s with mem := t.mem } ∧
        (t.mem.read s.i.toNat).toNat = (s.getV x).toNat / 100 ∧
        (t.mem.read (s.i.toNat + 1)).toNat = (s.getV x).toNat / 10 % 10 ∧
        (t.mem.read (s.i.toNat + 2)).toNat = (s.getV x).toNat % 10 ∧
        KeepsMemoryOutside s.i.toNat 3 s t) ∧
    ∀ (x : RegIx) (s : State), 4096 ≤ s.i.toNat + 2 →
      exec (.ldB x) s =
        .next (s.faulted .memoryOutOfRange (encode (.ldB x)) (some (max s.i.toNat 4096)) none)

/-- R184, R186: LD [I], Vx in range stores V[k] at I + k for each k up to x and changes nothing else; out of range it
latches `MemoryOutOfRange` with the lowest bad address and stores nothing. -/
def Obligations.RegistersAreStored : Prop :=
  Decodes 0xF0FF 0xF055 (fun w => .stRegs (fieldX w)) ∧
    (∀ (x : RegIx) (s : State), s.mem.wf = true → s.i.toNat + x.val < 4096 →
      ∃ t, exec (.stRegs x) s = .next t ∧ t = { s with mem := t.mem } ∧
        (∀ k : RegIx, k ≤ x → t.mem.read (s.i.toNat + k.val) = s.getV k) ∧
        KeepsMemoryOutside s.i.toNat (x.val + 1) s t) ∧
    ∀ (x : RegIx) (s : State), 4096 ≤ s.i.toNat + x.val →
      exec (.stRegs x) s =
        .next (s.faulted .memoryOutOfRange (encode (.stRegs x)) (some (max s.i.toNat 4096)) none)

/-- R185, R186: LD Vx, [I] in range loads V[k] from I + k for each k up to x, leaves the registers above x, and
changes nothing else; out of range it latches `MemoryOutOfRange` and loads nothing. -/
def Obligations.RegistersAreLoaded : Prop :=
  Decodes 0xF0FF 0xF065 (fun w => .ldRegs (fieldX w)) ∧
    (∀ (x : RegIx) (s : State), s.i.toNat + x.val < 4096 →
      ∃ t, exec (.ldRegs x) s = .next t ∧ t = { s with v := t.v } ∧
        (∀ k : RegIx, k ≤ x → t.getV k = s.mem.read (s.i.toNat + k.val)) ∧
        ∀ k : RegIx, x < k → t.getV k = s.getV k) ∧
    ∀ (x : RegIx) (s : State), 4096 ≤ s.i.toNat + x.val →
      exec (.ldRegs x) s =
        .next (s.faulted .memoryOutOfRange (encode (.ldRegs x)) (some (max s.i.toNat 4096)) none)

/-- R184, R185: storing V0 to Vx and then loading V0 to Vx with I unchanged gives every register its value back,
whatever the registers held in between. -/
def Obligations.StoreThenLoadRestoresRegisters : Prop :=
  ∀ (x : RegIx) (s t u : State), s.mem.wf = true → s.i.toNat + x.val < 4096 →
    exec (.stRegs x) s = .next t → u.i = t.i → u.mem = t.mem →
    ∃ v, exec (.ldRegs x) u = .next v ∧ ∀ k : RegIx, k ≤ x → v.getV k = s.getV k

/-! ### Display (44_display.md) -/

/-- R201: CLS makes every cell unlit and changes nothing else. -/
def Obligations.ClearScreenUnlightsEveryCell : Prop :=
  Decodes 0xFFFF 0x00E0 (fun _ => .cls) ∧
    ∀ s : State, ∃ t, exec .cls s = .next t ∧ t = { s with display := t.display } ∧
      ∀ c r, t.display.lit c r = false

/-- R202: DRW in range (or with n = 0) flips exactly the cells the set bits of the sprite land on, VF is 1 exactly
when one of them was lit, and nothing else changes; out of range it latches `MemoryOutOfRange` with the lowest bad
address and changes no cell. -/
def Obligations.DrawXorsTheSprite : Prop :=
  Decodes 0xF000 0xD000 (fun w => .drw (fieldX w) (fieldY w) (fieldN w).toNat) ∧
    (∀ (x y : RegIx) (n : Nat) (s : State), n ≤ 15 → n = 0 ∨ s.i.toNat + n - 1 < 4096 →
      ∃ t, exec (.drw x y n) s = .next t ∧ t = { s with v := t.v, display := t.display } ∧
        (∀ c r, SpriteCovers s.mem s.i.toNat (s.getV x) (s.getV y) n c r →
          t.display.lit c r = !s.display.lit c r) ∧
        (∀ c r, ¬ SpriteCovers s.mem s.i.toNat (s.getV x) (s.getV y) n c r →
          t.display.lit c r = s.display.lit c r) ∧
        (t.getV 15 = 1 ∨ t.getV 15 = 0) ∧
        (t.getV 15 = 1 ↔ ∃ c r, s.display.lit c r = true ∧ t.display.lit c r = false) ∧
        ∀ k, k ≠ 15 → t.getV k = s.getV k) ∧
    ∀ (x y : RegIx) (n : Nat) (s : State), 0 < n → 4096 ≤ s.i.toNat + n - 1 →
      exec (.drw x y n) s =
        .next (s.faulted .memoryOutOfRange (encode (.drw x y n)) (some (max s.i.toNat 4096)) none)

/-- R203(c) (the spec's own inference): with x and y other than 15, drawing the same sprite twice restores every cell,
and the second draw's VF is 1 exactly when the first draw lit a cell. -/
def Obligations.DrawingTwiceRestoresTheScreen : Prop :=
  ∀ (x y : RegIx) (n : Nat) (s : State), x ≠ 15 → y ≠ 15 → n ≤ 15 → n = 0 ∨ s.i.toNat + n - 1 < 4096 →
    ∃ t u, exec (.drw x y n) s = .next t ∧ exec (.drw x y n) t = .next u ∧ u.display = s.display ∧
      (u.getV 15 = 1 ↔ ∃ c r, s.display.lit c r = false ∧ t.display.lit c r = true)

/-! ### Keypad and timers (45_timers_keypad.md) -/

/-- R220, R221: with V[x] = k at most 15, SKP and SKNP add 2 to pc exactly when key k is pressed, or not pressed, and
change nothing else; with V[x] above 15 they latch `KeyIndexOutOfRange` with that value. -/
def Obligations.KeySkips : Prop :=
  Decodes 0xF0FF 0xE09E (fun w => .skp (fieldX w)) ∧ Decodes 0xF0FF 0xE0A1 (fun w => .sknp (fieldX w)) ∧
    (∀ (x : RegIx) (s : State) (k : Fin 16), (s.getV x).toNat = k.val →
      exec (.skp x) s = .next { s with pc := if s.key k = true then s.pc + 2 else s.pc } ∧
        exec (.sknp x) s = .next { s with pc := if s.key k = true then s.pc else s.pc + 2 }) ∧
    ∀ (x : RegIx) (s : State), 15 < (s.getV x).toNat →
      exec (.skp x) s =
          .next (s.faulted .keyIndexOutOfRange (encode (.skp x)) none (some (s.getV x))) ∧
        exec (.sknp x) s =
          .next (s.faulted .keyIndexOutOfRange (encode (.sknp x)) none (some (s.getV x)))

/-- R223: LD Vx, K with some key pressed stores the lowest pressed index in V[x] and changes nothing else; with none
pressed it takes pc back to its own address and changes nothing else, so that the whole tick that fetched it leaves the
state as it was and returns `ok`. -/
def Obligations.KeyWaitStoresLowestKeyOrRepeats : Prop :=
  Decodes 0xF0FF 0xF00A (fun w => .ldK (fieldX w)) ∧
    (∀ (x : RegIx) (s : State) (k : Fin 16), s.key k = true → (∀ j, j < k → s.key j = false) →
      ∃ t, exec (.ldK x) s = .next t ∧ t = { s with v := t.v } ∧ (t.getV x).toNat = k.val ∧
        ∀ j, j ≠ x → t.getV j = s.getV j) ∧
    (∀ (x : RegIx) (s : State), (∀ k, s.key k = false) → exec (.ldK x) s = .next { s with pc := s.pc - 2 }) ∧
    ∀ (x : RegIx) (s : State), (∀ k, s.key k = false) → s.fault = none → s.pc.toNat + 1 < 4096 →
      decode s.fetchWord = .ok (.ldK x) →
        step s = .next s ∧ ∀ font, command font .tick s = .next (s, .ok)

/-- R222, R224, R225: LD Vx, DT, LD DT, Vx and LD ST, Vx copy between a register and a timer and change nothing
else. -/
def Obligations.TimerTransfers : Prop :=
  Decodes 0xF0FF 0xF007 (fun w => .ldVxDt (fieldX w)) ∧ Decodes 0xF0FF 0xF015 (fun w => .ldDt (fieldX w)) ∧
    Decodes 0xF0FF 0xF018 (fun w => .ldSt (fieldX w)) ∧
    ∀ (x : RegIx) (s : State),
      (∃ t, exec (.ldVxDt x) s = .next t ∧ t = { s with v := t.v } ∧ t.getV x = s.dt ∧
        ∀ k, k ≠ x → t.getV k = s.getV k) ∧
      exec (.ldDt x) s = .next { s with dt := s.getV x } ∧
      exec (.ldSt x) s = .next { s with st := s.getV x }

/-! ### Host commands (60_exceptions.md, 70_reset_and_hazards.md) -/

/-- R250: `tick_timers` counts each timer down by one, stopping at 0, returns whether ST was 1, and changes nothing
else, with a fault latched or not; and N calls take each timer to max(0, value - N). -/
def Obligations.TimersCountDownToZero : Prop :=
  ∀ (font : Font) (s : State),
    (∃ t, command font .tickTimers s = .next (t, .beep (decide (s.st = 1))) ∧
      t = { s with dt := t.dt, st := t.st } ∧ t.dt.toNat = s.dt.toNat - 1 ∧ t.st.toNat = s.st.toNat - 1) ∧
    ∀ n : Nat, ∃ t replies, runCommands font (List.replicate n .tickTimers) s = .next (t, replies) ∧
      t = { s with dt := t.dt, st := t.st } ∧ t.dt.toNat = s.dt.toNat - n ∧ t.st.toNat = s.st.toNat - n

/-- R251: a countdown of ST gives exactly one beep request, on the call that takes it from 1 to 0; an ST of 0 gives
none. -/
def Obligations.OneBeepPerCountdown : Prop :=
  ∀ (font : Font) (s : State) (n : Nat),
    ∃ t replies, runCommands font (List.replicate n .tickTimers) s = .next (t, replies) ∧
      ∀ k : Nat, replies[k]? = some (.beep true) ↔ k < n ∧ s.st.toNat = k + 1

/-- R283, R284: `load` of at most 3584 bytes puts byte k at 0x200 + k, leaves every other byte, and changes nothing
else; a longer image is refused and changes nothing. -/
def Obligations.LoadCopiesTheImageOrRefuses : Prop :=
  (∀ (font : Font) (bytes : List Byte) (s : State), s.mem.wf = true → bytes.length ≤ 3584 →
    ∃ t, command font (.load bytes) s = .next (t, .ok) ∧ t = { s with mem := t.mem } ∧
      (∀ (k : Nat) (hk : k < bytes.length), t.mem.read (0x200 + k) = bytes[k]) ∧
      KeepsMemoryOutside 0x200 bytes.length s t) ∧
  ∀ (font : Font) (bytes : List Byte) (s : State), 3584 < bytes.length →
    command font (.load bytes) s = .next (s, .imageTooLarge)

/-- R252, R247: `keypress` of an index below 16 sets that flag, leaves the others, and changes nothing else; a larger
index is refused and changes nothing. -/
def Obligations.KeypressSetsOneFlagOrRefuses : Prop :=
  (∀ (font : Font) (k : Fin 16) (pressed : Bool) (s : State),
    ∃ t, command font (.keypress k.val pressed) s = .next (t, .ok) ∧ t = { s with keys := t.keys } ∧
      t.key k = pressed ∧ ∀ j, j ≠ k → t.key j = s.key j) ∧
  ∀ (font : Font) (index : Nat) (pressed : Bool) (s : State), 15 < index →
    command font (.keypress index pressed) s = .next (s, .keyArgOutOfRange)

/-- R253, R200: `get_display` returns the 2048 cells, cell (c, r) at index r * 64 + c, and changes nothing. -/
def Obligations.GetDisplayIsRowMajor : Prop :=
  ∀ (font : Font) (s : State), ∃ cells : List Bool,
    command font .getDisplay s = .next (s, .cells cells) ∧ cells.length = 2048 ∧
      ∀ (c : Col) (r : Row), cells[r.val * 64 + c.val]? = some (s.display.lit c r)

/-- R74, R291: what `load`, Fx55 or Fx33 stored is what the next fetch there reads, whatever else has changed in
between but memory, the fetch in the middle of two stored bytes and the fetch of one stored byte included; and a tick
runs the instruction that two bytes just loaded at the entry, or two registers just stored, spell. -/
def Obligations.TickRunsWhatWasLoaded : Prop :=
  (∀ (font : Font) (bytes : List Byte) (s t u : State) (reply : Reply), s.mem.wf = true → bytes.length ≤ 3584 →
    command font (.load bytes) s = .next (t, reply) → u.mem = t.mem →
    ∀ (k : Nat) (hk : k < bytes.length), FetchesAt u (0x200 + k) bytes[k]) ∧
  (∀ (x : RegIx) (s t u : State), s.mem.wf = true → s.i.toNat + x.val < 4096 →
    exec (.stRegs x) s = .next t → u.mem = t.mem →
    ∀ k : RegIx, k ≤ x → FetchesAt u (s.i.toNat + k.val) (s.getV k)) ∧
  (∀ (x : RegIx) (s t u : State), s.mem.wf = true → s.i.toNat + 2 < 4096 →
    exec (.ldB x) s = .next t → u.mem = t.mem →
    FetchesAt u s.i.toNat (BitVec.ofNat 8 ((s.getV x).toNat / 100)) ∧
      FetchesAt u (s.i.toNat + 1) (BitVec.ofNat 8 ((s.getV x).toNat / 10 % 10)) ∧
      FetchesAt u (s.i.toNat + 2) (BitVec.ofNat 8 ((s.getV x).toNat % 10))) ∧
  (∀ (font : Font) (hi lo : Byte) (i : Instr) (s t : State) (reply : Reply), s.mem.wf = true → s.fault = none →
    s.pc = 0x200 → decode (wordOfBytes hi lo) = .ok i → command font (.load [hi, lo]) s = .next (t, reply) →
    step t = exec i { t with pc := 0x202 }) ∧
  ∀ (x k k' : RegIx) (i : Instr) (s t u : State), s.mem.wf = true → s.i.toNat + x.val < 4096 →
    exec (.stRegs x) s = .next t → k'.val = k.val + 1 → k' ≤ x → decode (wordOfBytes (s.getV k) (s.getV k')) = .ok i →
    u.mem = t.mem → u.fault = none → u.pc.toNat = s.i.toNat + k.val →
    step u = exec i { u with pc := u.pc + 2 }

/-! ### Who writes what (10_state.md R20, R22, R31) -/

/-- R20's column "written by", R21, R22, R31, R35: an instruction that answers a next state changes an element only
if the table names it for that element: V[k] only as its destination, or VF as its flag; pc, past the fetch's own
advance, only by a skip, 00EE, 1nnn, 2nnn, Bnnn or Fx0A, but for the fault that puts it back; FAULT only where it
faults. A tick writes FAULT only on a fault, with no fault latched before. The last clause, on the model's own draw
counter, is the model's choice (log entry 1). -/
def Obligations.ElementsHaveOnlyTheirWriters : Prop :=
  (∀ (i : Instr) (s t : State), exec i s = .next t →
    t.keys = s.keys ∧
      (t.dt ≠ s.dt → i.row.mnemonic = "LD_DT") ∧ (t.st ≠ s.st → i.row.mnemonic = "LD_ST") ∧
      (t.i ≠ s.i → i.row.mnemonic ∈ ["LD_I", "ADD_I", "LD_F"]) ∧
      (t.stack ≠ s.stack → i.row.mnemonic = "CALL") ∧ (t.sp ≠ s.sp → i.row.mnemonic ∈ ["CALL", "RET"]) ∧
      (t.display ≠ s.display → i.row.mnemonic ∈ ["CLS", "DRW"]) ∧
      (t.mem ≠ s.mem → i.row.mnemonic ∈ ["LD_B", "ST_REGS"]) ∧
      (∀ k : RegIx, t.getV k ≠ s.getV k →
        (k = 15 ∧ i.row.mnemonic ∈ ["ADD_REG", "SUB", "SHR", "SUBN", "SHL", "DRW"]) ∨
          (k = fieldX (encode i) ∧ i.row.mnemonic ∈ ["LD_IMM", "ADD_IMM", "LD_REG", "OR", "AND", "XOR", "ADD_REG",
            "SUB", "SHR", "SUBN", "SHL", "RND", "LD_VX_DT", "LD_K"]) ∨
          (k ≤ fieldX (encode i) ∧ i.row.mnemonic = "LD_REGS")) ∧
      (t.pc ≠ s.pc →
        i.row.mnemonic ∈ ["SE_IMM", "SNE_IMM", "SE_REG", "SNE_REG", "SKP", "SKNP", "RET", "JP", "CALL", "JP_V0",
          "LD_K"] ∨ FaultsTo i s t) ∧
      (t.fault ≠ s.fault →
        i.row.mnemonic ∈ ["CALL", "RET", "DRW", "LD_B", "ST_REGS", "LD_REGS", "SKP", "SKNP"] ∧ FaultsTo i s t) ∧
      (t.draws ≠ s.draws → i.row.mnemonic = "RND")) ∧
  ∀ s t : State, step s = .next t → t.fault ≠ s.fault →
    s.fault = none ∧ ∃ r, t = { s with fault := some r }

/-- R290, R31, R246: a tick, whatever it runs or faults on, moves no timer except by Fx15 and Fx18, and never touches
the keypad. -/
def Obligations.TicksMoveNoTimerAndNoKey : Prop :=
  ∀ s t : State, step s = .next t →
    t.keys = s.keys ∧ (t.dt ≠ s.dt → ∃ x, decode s.fetchWord = .ok (.ldDt x)) ∧
      (t.st ≠ s.st → ∃ x, decode s.fetchWord = .ok (.ldSt x))

/-! ### Frames -/

/-- R120 to R128: what NOP, JP, JP V0 and the compare skips leave unchanged: everything but pc. -/
def Obligations.FrameOfJumpsAndSkips : Prop :=
  ∀ (i : Instr) (s t : State),
    i.row.mnemonic ∈ ["NOP", "JP", "JP_V0", "SE_IMM", "SNE_IMM", "SE_REG", "SNE_REG"] → exec i s = .next t →
    KeepsRegs s t ∧ KeepsAllButRegs s t ∧ t.fault = s.fault

/-- R121, R123: what CALL and RET leave unchanged: every register, I, the timers, the keypad, the framebuffer and all
of memory; a RET that does not fault also keeps every stack slot. pc, SP, the latch and, for CALL, the slot at SP may
change. -/
def Obligations.FrameOfCallAndRet : Prop :=
  ∀ (i : Instr) (s t : State), i.row.mnemonic ∈ ["CALL", "RET"] → exec i s = .next t →
    KeepsRegs s t ∧ t.i = s.i ∧ KeepsTimers s t ∧ KeepsKeys s t ∧ KeepsDisplay s t ∧ KeepsMemory s t ∧
      t.draws = s.draws ∧ (∀ k : Fin 16, i.row.mnemonic = "RET" ∨ s.sp.toNat ≠ k.val → t.slot k = s.slot k)

/-- R155 to R160, R167, R168, R222, R223: what the flag-free instructions with a register destination leave unchanged:
every register but V[x] (so VF unless x = 15) and everything else, except pc for LD Vx, K and the model's own draw
counter for RND. -/
def Obligations.FrameOfFlagFreeRegisterInstructions : Prop :=
  ∀ (i : Instr) (s t : State),
    i.row.mnemonic ∈ ["LD_IMM", "ADD_IMM", "LD_REG", "OR", "AND", "XOR", "RND", "LD_VX_DT", "LD_K"] →
    exec i s = .next t →
    KeepsRegsBut (· = fieldX (encode i)) s t ∧ t.i = s.i ∧ KeepsStack s t ∧ KeepsTimers s t ∧ KeepsKeys s t ∧
      KeepsDisplay s t ∧ KeepsMemory s t ∧ t.fault = s.fault ∧ (i.row.mnemonic ≠ "LD_K" → t.pc = s.pc) ∧
      (i.row.mnemonic ≠ "RND" → t.draws = s.draws)

/-- R161 to R165: what the flag-writing ALU instructions leave unchanged: every register but V[x] and VF, pc, and
everything else. -/
def Obligations.FrameOfFlagWritingInstructions : Prop :=
  ∀ (i : Instr) (s t : State), i.row.mnemonic ∈ ["ADD_REG", "SUB", "SHR", "SUBN", "SHL"] → exec i s = .next t →
    KeepsRegsBut (fun k => k = fieldX (encode i) ∨ k = 15) s t ∧ t.pc = s.pc ∧ KeepsAllButRegs s t ∧
      t.fault = s.fault

/-- R180 to R182, R224, R225: what LD I, ADD I, LD F, LD DT and LD ST leave unchanged: every register, pc, the stack,
the keypad, the framebuffer, all of memory, the latch, and whichever of I, DT and ST is not the destination. -/
def Obligations.FrameOfIndexAndTimerWrites : Prop :=
  ∀ (i : Instr) (s t : State), i.row.mnemonic ∈ ["LD_I", "ADD_I", "LD_F", "LD_DT", "LD_ST"] → exec i s = .next t →
    KeepsRegs s t ∧ t.pc = s.pc ∧ KeepsStack s t ∧ KeepsKeys s t ∧ KeepsDisplay s t ∧ KeepsMemory s t ∧
      t.fault = s.fault ∧ t.draws = s.draws ∧ (i.row.mnemonic ∈ ["LD_DT", "LD_ST"] → t.i = s.i) ∧
      (i.row.mnemonic ≠ "LD_DT" → t.dt = s.dt) ∧ (i.row.mnemonic ≠ "LD_ST" → t.st = s.st)

/-- R183, R184, R186: what LD B and LD [I], Vx leave unchanged: every register, I, the stack, the timers, the keypad,
the framebuffer, and every byte of memory outside the 3, or x + 1, bytes from the effective address of byte 0. Where
the range check fails they leave all of memory. -/
def Obligations.FrameOfMemoryStores : Prop :=
  ∀ (x : RegIx) (s t : State), s.mem.wf = true →
    (exec (.ldB x) s = .next t → KeepsMemoryOutside (s.ea 0) 3 s t) ∧
      (exec (.stRegs x) s = .next t → KeepsMemoryOutside (s.ea 0) (x.val + 1) s t) ∧
      (exec (.ldB x) s = .next t → 4096 ≤ s.ea 2 → KeepsMemory s t) ∧
      (exec (.stRegs x) s = .next t → 4096 ≤ s.ea x.val → KeepsMemory s t) ∧
      (exec (.ldB x) s = .next t ∨ exec (.stRegs x) s = .next t →
        KeepsRegs s t ∧ t.i = s.i ∧ KeepsStack s t ∧ KeepsTimers s t ∧ KeepsKeys s t ∧ KeepsDisplay s t ∧
          t.draws = s.draws)

/-- R185, R201, R202, R220, R221: what LD Vx, [I], CLS, DRW, SKP and SKNP leave unchanged, a fault of theirs included:
I, the stack, the timers, the keypad and all of memory; LD Vx, [I] every register above x, DRW every register but VF,
the others every register; the framebuffer for all but CLS and DRW. -/
def Obligations.FrameOfLoadsDisplayAndKeySkips : Prop :=
  ∀ (i : Instr) (s t : State), i.row.mnemonic ∈ ["LD_REGS", "CLS", "DRW", "SKP", "SKNP"] → exec i s = .next t →
    t.i = s.i ∧ KeepsStack s t ∧ KeepsTimers s t ∧ KeepsKeys s t ∧ KeepsMemory s t ∧ t.draws = s.draws ∧
      (i.row.mnemonic ∈ ["CLS", "SKP", "SKNP"] → KeepsRegs s t) ∧
      (i.row.mnemonic = "LD_REGS" → KeepsRegsBut (· ≤ fieldX (encode i)) s t) ∧
      (i.row.mnemonic = "DRW" → KeepsRegsBut (· = 15) s t) ∧
      (i.row.mnemonic ∈ ["LD_REGS", "SKP", "SKNP"] → KeepsDisplay s t)
end

