-- ==== Sys2Proof/Laws/State.lean ====
section
/-!
SUPPORT. One lemma per field of the state per named update, true by unfolding, so that no later proof unfolds a
record update; and what the reads through accessors see.
-/
namespace Sys2Proof.Machine

variable (s : State)

/-! ### `State.setV` -/

@[simp] theorem State.setV_v (x : RegIx) (b : Byte) : (s.setV x b).v = s.v.set x.val b := rfl
@[simp] theorem State.setV_i (x : RegIx) (b : Byte) : (s.setV x b).i = s.i := rfl
@[simp] theorem State.setV_pc (x : RegIx) (b : Byte) : (s.setV x b).pc = s.pc := rfl
@[simp] theorem State.setV_stack (x : RegIx) (b : Byte) : (s.setV x b).stack = s.stack := rfl
@[simp] theorem State.setV_sp (x : RegIx) (b : Byte) : (s.setV x b).sp = s.sp := rfl
@[simp] theorem State.setV_dt (x : RegIx) (b : Byte) : (s.setV x b).dt = s.dt := rfl
@[simp] theorem State.setV_st (x : RegIx) (b : Byte) : (s.setV x b).st = s.st := rfl
@[simp] theorem State.setV_keys (x : RegIx) (b : Byte) : (s.setV x b).keys = s.keys := rfl
@[simp] theorem State.setV_display (x : RegIx) (b : Byte) : (s.setV x b).display = s.display := rfl
@[simp] theorem State.setV_mem (x : RegIx) (b : Byte) : (s.setV x b).mem = s.mem := rfl
@[simp] theorem State.setV_fault (x : RegIx) (b : Byte) : (s.setV x b).fault = s.fault := rfl
@[simp] theorem State.setV_draws (x : RegIx) (b : Byte) : (s.setV x b).draws = s.draws := rfl

/-! ### `State.setVs` -/

@[simp] theorem State.setVs_v (bs : List Byte) : (s.setVs bs).v = setRegs s.v 0 bs := rfl
@[simp] theorem State.setVs_i (bs : List Byte) : (s.setVs bs).i = s.i := rfl
@[simp] theorem State.setVs_pc (bs : List Byte) : (s.setVs bs).pc = s.pc := rfl
@[simp] theorem State.setVs_stack (bs : List Byte) : (s.setVs bs).stack = s.stack := rfl
@[simp] theorem State.setVs_sp (bs : List Byte) : (s.setVs bs).sp = s.sp := rfl
@[simp] theorem State.setVs_dt (bs : List Byte) : (s.setVs bs).dt = s.dt := rfl
@[simp] theorem State.setVs_st (bs : List Byte) : (s.setVs bs).st = s.st := rfl
@[simp] theorem State.setVs_keys (bs : List Byte) : (s.setVs bs).keys = s.keys := rfl
@[simp] theorem State.setVs_display (bs : List Byte) : (s.setVs bs).display = s.display := rfl
@[simp] theorem State.setVs_mem (bs : List Byte) : (s.setVs bs).mem = s.mem := rfl
@[simp] theorem State.setVs_fault (bs : List Byte) : (s.setVs bs).fault = s.fault := rfl
@[simp] theorem State.setVs_draws (bs : List Byte) : (s.setVs bs).draws = s.draws := rfl

/-! ### `State.setI` -/

@[simp] theorem State.setI_v (w : Word) : (s.setI w).v = s.v := rfl
@[simp] theorem State.setI_i (w : Word) : (s.setI w).i = w := rfl
@[simp] theorem State.setI_pc (w : Word) : (s.setI w).pc = s.pc := rfl
@[simp] theorem State.setI_stack (w : Word) : (s.setI w).stack = s.stack := rfl
@[simp] theorem State.setI_sp (w : Word) : (s.setI w).sp = s.sp := rfl
@[simp] theorem State.setI_dt (w : Word) : (s.setI w).dt = s.dt := rfl
@[simp] theorem State.setI_st (w : Word) : (s.setI w).st = s.st := rfl
@[simp] theorem State.setI_keys (w : Word) : (s.setI w).keys = s.keys := rfl
@[simp] theorem State.setI_display (w : Word) : (s.setI w).display = s.display := rfl
@[simp] theorem State.setI_mem (w : Word) : (s.setI w).mem = s.mem := rfl
@[simp] theorem State.setI_fault (w : Word) : (s.setI w).fault = s.fault := rfl
@[simp] theorem State.setI_draws (w : Word) : (s.setI w).draws = s.draws := rfl

/-! ### `State.setPc` -/

@[simp] theorem State.setPc_v (w : Word) : (s.setPc w).v = s.v := rfl
@[simp] theorem State.setPc_i (w : Word) : (s.setPc w).i = s.i := rfl
@[simp] theorem State.setPc_pc (w : Word) : (s.setPc w).pc = w := rfl
@[simp] theorem State.setPc_stack (w : Word) : (s.setPc w).stack = s.stack := rfl
@[simp] theorem State.setPc_sp (w : Word) : (s.setPc w).sp = s.sp := rfl
@[simp] theorem State.setPc_dt (w : Word) : (s.setPc w).dt = s.dt := rfl
@[simp] theorem State.setPc_st (w : Word) : (s.setPc w).st = s.st := rfl
@[simp] theorem State.setPc_keys (w : Word) : (s.setPc w).keys = s.keys := rfl
@[simp] theorem State.setPc_display (w : Word) : (s.setPc w).display = s.display := rfl
@[simp] theorem State.setPc_mem (w : Word) : (s.setPc w).mem = s.mem := rfl
@[simp] theorem State.setPc_fault (w : Word) : (s.setPc w).fault = s.fault := rfl
@[simp] theorem State.setPc_draws (w : Word) : (s.setPc w).draws = s.draws := rfl

/-! ### `State.setDt` -/

@[simp] theorem State.setDt_v (b : Byte) : (s.setDt b).v = s.v := rfl
@[simp] theorem State.setDt_i (b : Byte) : (s.setDt b).i = s.i := rfl
@[simp] theorem State.setDt_pc (b : Byte) : (s.setDt b).pc = s.pc := rfl
@[simp] theorem State.setDt_stack (b : Byte) : (s.setDt b).stack = s.stack := rfl
@[simp] theorem State.setDt_sp (b : Byte) : (s.setDt b).sp = s.sp := rfl
@[simp] theorem State.setDt_dt (b : Byte) : (s.setDt b).dt = b := rfl
@[simp] theorem State.setDt_st (b : Byte) : (s.setDt b).st = s.st := rfl
@[simp] theorem State.setDt_keys (b : Byte) : (s.setDt b).keys = s.keys := rfl
@[simp] theorem State.setDt_display (b : Byte) : (s.setDt b).display = s.display := rfl
@[simp] theorem State.setDt_mem (b : Byte) : (s.setDt b).mem = s.mem := rfl
@[simp] theorem State.setDt_fault (b : Byte) : (s.setDt b).fault = s.fault := rfl
@[simp] theorem State.setDt_draws (b : Byte) : (s.setDt b).draws = s.draws := rfl

/-! ### `State.setSt` -/

@[simp] theorem State.setSt_v (b : Byte) : (s.setSt b).v = s.v := rfl
@[simp] theorem State.setSt_i (b : Byte) : (s.setSt b).i = s.i := rfl
@[simp] theorem State.setSt_pc (b : Byte) : (s.setSt b).pc = s.pc := rfl
@[simp] theorem State.setSt_stack (b : Byte) : (s.setSt b).stack = s.stack := rfl
@[simp] theorem State.setSt_sp (b : Byte) : (s.setSt b).sp = s.sp := rfl
@[simp] theorem State.setSt_dt (b : Byte) : (s.setSt b).dt = s.dt := rfl
@[simp] theorem State.setSt_st (b : Byte) : (s.setSt b).st = b := rfl
@[simp] theorem State.setSt_keys (b : Byte) : (s.setSt b).keys = s.keys := rfl
@[simp] theorem State.setSt_display (b : Byte) : (s.setSt b).display = s.display := rfl
@[simp] theorem State.setSt_mem (b : Byte) : (s.setSt b).mem = s.mem := rfl
@[simp] theorem State.setSt_fault (b : Byte) : (s.setSt b).fault = s.fault := rfl
@[simp] theorem State.setSt_draws (b : Byte) : (s.setSt b).draws = s.draws := rfl

/-! ### `State.setDisplay` -/

@[simp] theorem State.setDisplay_v (d : Display) : (s.setDisplay d).v = s.v := rfl
@[simp] theorem State.setDisplay_i (d : Display) : (s.setDisplay d).i = s.i := rfl
@[simp] theorem State.setDisplay_pc (d : Display) : (s.setDisplay d).pc = s.pc := rfl
@[simp] theorem State.setDisplay_stack (d : Display) : (s.setDisplay d).stack = s.stack := rfl
@[simp] theorem State.setDisplay_sp (d : Display) : (s.setDisplay d).sp = s.sp := rfl
@[simp] theorem State.setDisplay_dt (d : Display) : (s.setDisplay d).dt = s.dt := rfl
@[simp] theorem State.setDisplay_st (d : Display) : (s.setDisplay d).st = s.st := rfl
@[simp] theorem State.setDisplay_keys (d : Display) : (s.setDisplay d).keys = s.keys := rfl
@[simp] theorem State.setDisplay_display (d : Display) : (s.setDisplay d).display = d := rfl
@[simp] theorem State.setDisplay_mem (d : Display) : (s.setDisplay d).mem = s.mem := rfl
@[simp] theorem State.setDisplay_fault (d : Display) : (s.setDisplay d).fault = s.fault := rfl
@[simp] theorem State.setDisplay_draws (d : Display) : (s.setDisplay d).draws = s.draws := rfl

/-! ### `State.setMem` -/

@[simp] theorem State.setMem_v (m : Memory) : (s.setMem m).v = s.v := rfl
@[simp] theorem State.setMem_i (m : Memory) : (s.setMem m).i = s.i := rfl
@[simp] theorem State.setMem_pc (m : Memory) : (s.setMem m).pc = s.pc := rfl
@[simp] theorem State.setMem_stack (m : Memory) : (s.setMem m).stack = s.stack := rfl
@[simp] theorem State.setMem_sp (m : Memory) : (s.setMem m).sp = s.sp := rfl
@[simp] theorem State.setMem_dt (m : Memory) : (s.setMem m).dt = s.dt := rfl
@[simp] theorem State.setMem_st (m : Memory) : (s.setMem m).st = s.st := rfl
@[simp] theorem State.setMem_keys (m : Memory) : (s.setMem m).keys = s.keys := rfl
@[simp] theorem State.setMem_display (m : Memory) : (s.setMem m).display = s.display := rfl
@[simp] theorem State.setMem_mem (m : Memory) : (s.setMem m).mem = m := rfl
@[simp] theorem State.setMem_fault (m : Memory) : (s.setMem m).fault = s.fault := rfl
@[simp] theorem State.setMem_draws (m : Memory) : (s.setMem m).draws = s.draws := rfl

/-! ### `State.countDraw` -/

@[simp] theorem State.countDraw_v : (s.countDraw).v = s.v := rfl
@[simp] theorem State.countDraw_i : (s.countDraw).i = s.i := rfl
@[simp] theorem State.countDraw_pc : (s.countDraw).pc = s.pc := rfl
@[simp] theorem State.countDraw_stack : (s.countDraw).stack = s.stack := rfl
@[simp] theorem State.countDraw_sp : (s.countDraw).sp = s.sp := rfl
@[simp] theorem State.countDraw_dt : (s.countDraw).dt = s.dt := rfl
@[simp] theorem State.countDraw_st : (s.countDraw).st = s.st := rfl
@[simp] theorem State.countDraw_keys : (s.countDraw).keys = s.keys := rfl
@[simp] theorem State.countDraw_display : (s.countDraw).display = s.display := rfl
@[simp] theorem State.countDraw_mem : (s.countDraw).mem = s.mem := rfl
@[simp] theorem State.countDraw_fault : (s.countDraw).fault = s.fault := rfl
@[simp] theorem State.countDraw_draws : (s.countDraw).draws = s.draws + 1 := rfl

/-! ### `State.push` -/

@[simp] theorem State.push_v (k : Fin 16) (w : Word) : (s.push k w).v = s.v := rfl
@[simp] theorem State.push_i (k : Fin 16) (w : Word) : (s.push k w).i = s.i := rfl
@[simp] theorem State.push_pc (k : Fin 16) (w : Word) : (s.push k w).pc = s.pc := rfl
@[simp] theorem State.push_stack (k : Fin 16) (w : Word) : (s.push k w).stack = s.stack.set k.val w := rfl
@[simp] theorem State.push_sp (k : Fin 16) (w : Word) : (s.push k w).sp = s.sp + 1 := rfl
@[simp] theorem State.push_dt (k : Fin 16) (w : Word) : (s.push k w).dt = s.dt := rfl
@[simp] theorem State.push_st (k : Fin 16) (w : Word) : (s.push k w).st = s.st := rfl
@[simp] theorem State.push_keys (k : Fin 16) (w : Word) : (s.push k w).keys = s.keys := rfl
@[simp] theorem State.push_display (k : Fin 16) (w : Word) : (s.push k w).display = s.display := rfl
@[simp] theorem State.push_mem (k : Fin 16) (w : Word) : (s.push k w).mem = s.mem := rfl
@[simp] theorem State.push_fault (k : Fin 16) (w : Word) : (s.push k w).fault = s.fault := rfl
@[simp] theorem State.push_draws (k : Fin 16) (w : Word) : (s.push k w).draws = s.draws := rfl

/-! ### `State.popPc` -/

@[simp] theorem State.popPc_v (k : Fin 16) : (s.popPc k).v = s.v := rfl
@[simp] theorem State.popPc_i (k : Fin 16) : (s.popPc k).i = s.i := rfl
@[simp] theorem State.popPc_pc (k : Fin 16) : (s.popPc k).pc = s.slot k := rfl
@[simp] theorem State.popPc_stack (k : Fin 16) : (s.popPc k).stack = s.stack := rfl
@[simp] theorem State.popPc_sp (k : Fin 16) : (s.popPc k).sp = s.sp - 1 := rfl
@[simp] theorem State.popPc_dt (k : Fin 16) : (s.popPc k).dt = s.dt := rfl
@[simp] theorem State.popPc_st (k : Fin 16) : (s.popPc k).st = s.st := rfl
@[simp] theorem State.popPc_keys (k : Fin 16) : (s.popPc k).keys = s.keys := rfl
@[simp] theorem State.popPc_display (k : Fin 16) : (s.popPc k).display = s.display := rfl
@[simp] theorem State.popPc_mem (k : Fin 16) : (s.popPc k).mem = s.mem := rfl
@[simp] theorem State.popPc_fault (k : Fin 16) : (s.popPc k).fault = s.fault := rfl
@[simp] theorem State.popPc_draws (k : Fin 16) : (s.popPc k).draws = s.draws := rfl

/-! ### `State.commitFault` -/

@[simp] theorem State.commitFault_v (r : FaultRecord) : (s.commitFault r).v = s.v := rfl
@[simp] theorem State.commitFault_i (r : FaultRecord) : (s.commitFault r).i = s.i := rfl
@[simp] theorem State.commitFault_pc (r : FaultRecord) : (s.commitFault r).pc = s.pc := rfl
@[simp] theorem State.commitFault_stack (r : FaultRecord) : (s.commitFault r).stack = s.stack := rfl
@[simp] theorem State.commitFault_sp (r : FaultRecord) : (s.commitFault r).sp = s.sp := rfl
@[simp] theorem State.commitFault_dt (r : FaultRecord) : (s.commitFault r).dt = s.dt := rfl
@[simp] theorem State.commitFault_st (r : FaultRecord) : (s.commitFault r).st = s.st := rfl
@[simp] theorem State.commitFault_keys (r : FaultRecord) : (s.commitFault r).keys = s.keys := rfl
@[simp] theorem State.commitFault_display (r : FaultRecord) : (s.commitFault r).display = s.display := rfl
@[simp] theorem State.commitFault_mem (r : FaultRecord) : (s.commitFault r).mem = s.mem := rfl
@[simp] theorem State.commitFault_fault (r : FaultRecord) : (s.commitFault r).fault = some r := rfl
@[simp] theorem State.commitFault_draws (r : FaultRecord) : (s.commitFault r).draws = s.draws := rfl

/-! ### Composed updates and accessors -/

@[simp] theorem State.setVF_def (b : Byte) : s.setVF b = s.setV vf b := rfl
@[simp] theorem State.advance_def : s.advance = s.setPc (s.pc + 2) := rfl
@[simp] theorem State.ownAddress_def : s.ownAddress = s.pc - 2 := rfl
@[simp] theorem State.tickStart_def : s.tickStart = s.setPc (s.pc - 2) := rfl

theorem State.skipIf_eq (c : Bool) : s.skipIf c = s.setPc (if c then s.pc + 2 else s.pc) := by
  cases c <;> rfl

@[simp] theorem State.getV_setV_self (x : RegIx) (b : Byte) : (s.setV x b).getV x = b := by
  simp [State.getV]

theorem State.getV_setV (x y : RegIx) (b : Byte) :
    (s.setV x b).getV y = if y = x then b else s.getV y := by
  simp only [State.getV, State.setV_v, Vector.getElem_set, Fin.ext_iff, eq_comm (a := y.val)]

theorem State.getV_setV_of_ne {x y : RegIx} (h : y ≠ x) (b : Byte) : (s.setV x b).getV y = s.getV y := by
  rw [State.getV_setV, if_neg h]

@[simp] theorem State.slot_push_self (k : Fin 16) (w : Word) : (s.push k w).slot k = w := by
  simp [State.slot]

theorem State.slot_push (k j : Fin 16) (w : Word) :
    (s.push k w).slot j = if j = k then w else s.slot j := by
  simp only [State.slot, State.push_stack, Vector.getElem_set, Fin.ext_iff, eq_comm (a := j.val)]

/-- A value in `V` is what `getV` reads; two states with the same `V` agree on every register. -/
theorem State.getV_congr {s t : State} (h : t.v = s.v) (x : RegIx) : t.getV x = s.getV x := by
  simp only [State.getV, h]

/-- Taking a fault from an instruction leaves exactly the state `State.faulted` describes. -/
theorem raise_eq (i : Instr) (code : FaultCode) (addr : Option Nat) (value : Option Byte) :
    raise i code addr value s = .next (s.faulted code (encode i) addr value) := rfl

end Sys2Proof.Machine
end

