-- ==== Sys2Proof/Laws/Decode.lean ====
section
/-!
SUPPORT. The laws of instruction words: a word is its fields, the fields of a packed word, and what a mask of the
opcode map fixes.
-/
namespace Sys2Proof

/-! ### Fields as numbers (30_encoding.md R81) -/

theorem fieldO_toNat (w : Word) : (fieldO w).toNat = w.toNat / 4096 := by
  have := w.isLt
  simp only [fieldO, BitVec.extractLsb'_toNat, Nat.shiftRight_eq_div_pow]
  omega

theorem fieldX_val (w : Word) : (fieldX w).val = w.toNat / 256 % 16 := by
  show (w.extractLsb' 8 4).toNat = _
  simp only [BitVec.extractLsb'_toNat, Nat.shiftRight_eq_div_pow]

theorem fieldY_val (w : Word) : (fieldY w).val = w.toNat / 16 % 16 := by
  show (w.extractLsb' 4 4).toNat = _
  simp only [BitVec.extractLsb'_toNat, Nat.shiftRight_eq_div_pow]

theorem fieldN_toNat (w : Word) : (fieldN w).toNat = w.toNat % 16 := by
  simp [fieldN, BitVec.extractLsb'_toNat]

theorem fieldNN_toNat (w : Word) : (fieldNN w).toNat = w.toNat % 256 := by
  simp [fieldNN, BitVec.extractLsb'_toNat]

theorem fieldNNN_toNat (w : Word) : (fieldNNN w).toNat = w.toNat % 4096 := by
  simp [fieldNNN, BitVec.extractLsb'_toNat]

/-! ### Packed words as numbers -/

theorem packNNN_toNat (o : Nibble) (nnn : Addr12) : (packNNN o nnn).toNat = o.toNat * 4096 + nnn.toNat := by
  have := nnn.isLt
  simp only [packNNN, BitVec.toNat_append]
  rw [Nat.shiftLeft_eq, ← Nat.shiftLeft_eq, ← Nat.shiftLeft_add_eq_or_of_lt nnn.isLt, Nat.shiftLeft_eq]

theorem append8_toNat (a b : Nibble) : (a ++ b : Byte).toNat = a.toNat * 16 + b.toNat := by
  rw [BitVec.toNat_append, ← Nat.shiftLeft_add_eq_or_of_lt b.isLt, Nat.shiftLeft_eq]

theorem append16_toNat (a b : Byte) : (a ++ b : Word).toNat = a.toNat * 256 + b.toNat := by
  rw [BitVec.toNat_append, ← Nat.shiftLeft_add_eq_or_of_lt b.isLt, Nat.shiftLeft_eq]

theorem regNibble_toNat (x : RegIx) : (regNibble x).toNat = x.val := rfl

theorem packXNN_toNat (o : Nibble) (x : RegIx) (nn : Byte) :
    (packXNN o x nn).toNat = o.toNat * 4096 + x.val * 256 + nn.toNat := by
  rw [packXNN, append16_toNat, append8_toNat, regNibble_toNat]
  omega

theorem packXYN_toNat (o : Nibble) (x y : RegIx) (n : Nibble) :
    (packXYN o x y n).toNat = o.toNat * 4096 + x.val * 256 + y.val * 16 + n.toNat := by
  rw [packXYN, append16_toNat, append8_toNat, append8_toNat, regNibble_toNat, regNibble_toNat]
  omega

/-- A word is its two bytes, the first in the high half (20_memory.md R65). -/
theorem wordOfBytes_toNat (hi lo : Byte) : (wordOfBytes hi lo).toNat = hi.toNat * 256 + lo.toNat :=
  append16_toNat hi lo

@[simp] theorem wordOfBytes_high_low (w : Word) : wordOfBytes (highByte w) (lowByte w) = w := by
  apply BitVec.eq_of_toNat_eq
  have := w.isLt
  rw [wordOfBytes_toNat]
  simp only [highByte, lowByte, BitVec.extractLsb'_toNat, Nat.shiftRight_eq_div_pow]
  omega

@[simp] theorem highByte_wordOfBytes (hi lo : Byte) : highByte (wordOfBytes hi lo) = hi := by
  apply BitVec.eq_of_toNat_eq
  have := hi.isLt
  have := lo.isLt
  simp only [highByte, BitVec.extractLsb'_toNat, Nat.shiftRight_eq_div_pow, wordOfBytes_toNat]
  omega

@[simp] theorem lowByte_wordOfBytes (hi lo : Byte) : lowByte (wordOfBytes hi lo) = lo := by
  apply BitVec.eq_of_toNat_eq
  have := lo.isLt
  simp only [lowByte, BitVec.extractLsb'_toNat, Nat.shiftRight_eq_div_pow, wordOfBytes_toNat]
  omega

/-! ### A word is its fields -/

theorem packNNN_fields (w : Word) : packNNN (fieldO w) (fieldNNN w) = w := by
  apply BitVec.eq_of_toNat_eq
  rw [packNNN_toNat, fieldO_toNat, fieldNNN_toNat]
  omega

theorem packXNN_fields (w : Word) : packXNN (fieldO w) (fieldX w) (fieldNN w) = w := by
  apply BitVec.eq_of_toNat_eq
  rw [packXNN_toNat, fieldO_toNat, fieldX_val, fieldNN_toNat]
  omega

theorem packXYN_fields (w : Word) : packXYN (fieldO w) (fieldX w) (fieldY w) (fieldN w) = w := by
  apply BitVec.eq_of_toNat_eq
  rw [packXYN_toNat, fieldO_toNat, fieldX_val, fieldY_val, fieldN_toNat]
  omega

/-! ### The fields of a packed word -/

@[simp] theorem fieldO_packNNN (o : Nibble) (nnn : Addr12) : fieldO (packNNN o nnn) = o := by
  apply BitVec.eq_of_toNat_eq
  have := nnn.isLt
  rw [fieldO_toNat, packNNN_toNat]
  omega

@[simp] theorem fieldNNN_packNNN (o : Nibble) (nnn : Addr12) : fieldNNN (packNNN o nnn) = nnn := by
  apply BitVec.eq_of_toNat_eq
  have := nnn.isLt
  rw [fieldNNN_toNat, packNNN_toNat]
  omega

@[simp] theorem fieldO_packXNN (o : Nibble) (x : RegIx) (nn : Byte) : fieldO (packXNN o x nn) = o := by
  apply BitVec.eq_of_toNat_eq
  have := nn.isLt
  have := x.isLt
  rw [fieldO_toNat, packXNN_toNat]
  omega

@[simp] theorem fieldX_packXNN (o : Nibble) (x : RegIx) (nn : Byte) : fieldX (packXNN o x nn) = x := by
  apply Fin.ext
  have := nn.isLt
  have := x.isLt
  rw [fieldX_val, packXNN_toNat]
  omega

@[simp] theorem fieldNN_packXNN (o : Nibble) (x : RegIx) (nn : Byte) : fieldNN (packXNN o x nn) = nn := by
  apply BitVec.eq_of_toNat_eq
  have := nn.isLt
  rw [fieldNN_toNat, packXNN_toNat]
  omega

@[simp] theorem fieldO_packXYN (o : Nibble) (x y : RegIx) (n : Nibble) : fieldO (packXYN o x y n) = o := by
  apply BitVec.eq_of_toNat_eq
  have := n.isLt
  have := x.isLt
  have := y.isLt
  rw [fieldO_toNat, packXYN_toNat]
  omega

@[simp] theorem fieldX_packXYN (o : Nibble) (x y : RegIx) (n : Nibble) : fieldX (packXYN o x y n) = x := by
  apply Fin.ext
  have := n.isLt
  have := x.isLt
  have := y.isLt
  rw [fieldX_val, packXYN_toNat]
  omega

@[simp] theorem fieldY_packXYN (o : Nibble) (x y : RegIx) (n : Nibble) : fieldY (packXYN o x y n) = y := by
  apply Fin.ext
  have := n.isLt
  have := y.isLt
  rw [fieldY_val, packXYN_toNat]
  omega

@[simp] theorem fieldN_packXYN (o : Nibble) (x y : RegIx) (n : Nibble) : fieldN (packXYN o x y n) = n := by
  apply BitVec.eq_of_toNat_eq
  have := n.isLt
  rw [fieldN_toNat, packXYN_toNat]
  omega

/-! ### What a mask of the opcode map fixes (R83) -/

theorem packNNN_and (o o' : Nibble) (a a' : Addr12) :
    packNNN o a &&& packNNN o' a' = packNNN (o &&& o') (a &&& a') := BitVec.and_append

theorem append8_and (a a' b b' : Nibble) :
    (a ++ b : Byte) &&& (a' ++ b' : Byte) = ((a &&& a') ++ (b &&& b') : Byte) := BitVec.and_append

theorem append16_and (a a' b b' : Byte) :
    (a ++ b : Word) &&& (a' ++ b' : Word) = ((a &&& a') ++ (b &&& b') : Word) := BitVec.and_append

theorem packXNN_and (o o' : Nibble) (x x' : RegIx) (nn nn' : Byte) :
    packXNN o x nn &&& packXNN o' x' nn' =
      packXNN (o &&& o') (regNibble x &&& regNibble x').toFin (nn &&& nn') := by
  rw [packXNN, packXNN, append16_and, append8_and]
  rfl

theorem packXYN_and (o o' : Nibble) (x x' y y' : RegIx) (n n' : Nibble) :
    packXYN o x y n &&& packXYN o' x' y' n' =
      packXYN (o &&& o') (regNibble x &&& regNibble x').toFin (regNibble y &&& regNibble y').toFin
        (n &&& n') := by
  rw [packXYN, packXYN, append16_and, append8_and, append8_and]
  rfl

theorem nibble_and_ones (o : Nibble) : o &&& 0xF = o := BitVec.and_allOnes

theorem byte_and_ones (b : Byte) : b &&& 0xFF = b := BitVec.and_allOnes

theorem regNibble_and_zero (x : RegIx) : (regNibble x &&& regNibble 0).toFin = 0 := by
  have h : regNibble x &&& 0#4 = 0#4 := BitVec.and_zero
  exact congrArg BitVec.toFin h

/-- The mask 0xF000 keeps the major opcode. -/
theorem and_F000 (w : Word) : w &&& 0xF000 = packNNN (fieldO w) 0 := by
  have h := packNNN_and (fieldO w) 0xF (fieldNNN w) 0
  rw [packNNN_fields, nibble_and_ones] at h
  exact h.trans (congrArg _ BitVec.and_zero)

/-- The mask 0xF00F keeps the major opcode and n. -/
theorem and_F00F (w : Word) : w &&& 0xF00F = packXYN (fieldO w) 0 0 (fieldN w) := by
  have h := packXYN_and (fieldO w) 0xF (fieldX w) 0 (fieldY w) 0 (fieldN w) 0xF
  rw [packXYN_fields, nibble_and_ones, nibble_and_ones, regNibble_and_zero, regNibble_and_zero] at h
  exact h

/-- The mask 0xF0FF keeps the major opcode and nn. -/
theorem and_F0FF (w : Word) : w &&& 0xF0FF = packXNN (fieldO w) 0 (fieldNN w) := by
  have h := packXNN_and (fieldO w) 0xF (fieldX w) 0 (fieldNN w) 0xFF
  rw [packXNN_fields, nibble_and_ones, byte_and_ones, regNibble_and_zero] at h
  exact h

/-- A word selects a row with mask 0xF000 by its major opcode. -/
theorem fieldO_of_and_F000 {w p : Word} (h : w &&& 0xF000 = p) : fieldO w = fieldO p := by
  rw [← h, and_F000, fieldO_packNNN]

/-- A word selects a row with mask 0xF00F by its major opcode and n. -/
theorem fields_of_and_F00F {w p : Word} (h : w &&& 0xF00F = p) : fieldO w = fieldO p ∧ fieldN w = fieldN p := by
  rw [← h, and_F00F, fieldO_packXYN, fieldN_packXYN]
  exact ⟨rfl, rfl⟩

/-- A word selects a row with mask 0xF0FF by its major opcode and nn. -/
theorem fields_of_and_F0FF {w p : Word} (h : w &&& 0xF0FF = p) :
    fieldO w = fieldO p ∧ fieldNN w = fieldNN p := by
  rw [← h, and_F0FF, fieldO_packXNN, fieldNN_packXNN]
  exact ⟨rfl, rfl⟩

/-- A word selects a row with mask 0xFFFF by being its pattern. -/
theorem eq_of_and_FFFF {w p : Word} (h : w &&& 0xFFFF = p) : w = p := by
  rw [← h]
  exact BitVec.and_allOnes.symm

end Sys2Proof
end

