-- ==== Sys2Proof/Laws/Memory.lean ====
section
/-!
SUPPORT. The laws of memory: what a read sees after a write, a block write or a reset, and that every memory
operation keeps the canonical form.
-/
namespace Sys2Proof.Machine

/-! ### Reads after writes -/

/-- A canonical memory from `lo` up has nothing listed below `lo`. -/
theorem Memory.read_of_lt_lo {lo : Nat} {m : Memory} (h : Memory.wfFrom lo m = true) {a : Nat} (ha : a < lo) :
    m.read a = Memory.unlisted := by
  induction m generalizing lo with
  | nil => rfl
  | cons p m ih =>
    obtain ⟨a', b⟩ := p
    simp only [Memory.wfFrom, Bool.and_eq_true, decide_eq_true_eq] at h
    obtain ⟨⟨⟨h1, -⟩, -⟩, h4⟩ := h
    rw [Memory.read, if_neg (by omega)]
    exact ih h4 (by omega)

theorem Memory.read_insert {lo : Nat} {m : Memory} (h : Memory.wfFrom lo m = true) (a : Nat) (b : Byte)
    (c : Nat) : (m.insert a b).read c = if c = a then b else m.read c := by
  induction m generalizing lo with
  | nil =>
    by_cases hb : b = Memory.unlisted <;> simp only [Memory.insert, hb, if_true, if_false, Memory.read]
    split <;> simp_all
  | cons p m ih =>
    obtain ⟨a', b'⟩ := p
    have h' := h
    simp only [Memory.wfFrom, Bool.and_eq_true, decide_eq_true_eq] at h
    obtain ⟨⟨⟨h1, -⟩, -⟩, h4⟩ := h
    rw [Memory.insert]
    by_cases hlt : a < a'
    · have hm : Memory.read m a = Memory.unlisted := Memory.read_of_lt_lo h4 (by omega)
      rw [if_pos hlt]
      split
      · rename_i hb
        by_cases hc : c = a
        · subst hc; rw [Memory.read, if_neg (by omega), hm, if_pos rfl, hb]
        · rw [if_neg hc]
      · simp only [Memory.read]
    · rw [if_neg hlt]
      by_cases heq : a = a'
      · subst heq
        rw [if_pos rfl]
        split
        · rename_i hb
          by_cases hc : c = a
          · subst hc; rw [if_pos rfl, hb]; exact Memory.read_of_lt_lo h4 (by omega)
          · rw [if_neg hc, Memory.read, if_neg hc]
        · by_cases hc : c = a
          · simp only [Memory.read, if_pos hc]
          · simp only [Memory.read, if_neg hc]
      · rw [if_neg heq, Memory.read, ih h4]
        by_cases hc : c = a'
        · rw [if_pos hc, if_neg (by omega), Memory.read, if_pos hc]
        · rw [if_neg hc, Memory.read, if_neg hc]

/-- A read after a write inside memory: the byte written at its address, the old byte elsewhere. -/
theorem Memory.read_write {m : Memory} (h : m.wf = true) {a : Nat} (ha : a < Config.memSize) (b : Byte)
    (c : Nat) : (m.write a b).read c = if c = a then b else m.read c := by
  rw [Memory.write, if_pos ha, Memory.read_insert h]

/-! ### The canonical form -/

/-- A canonical memory from `lo` up is canonical from any lower bound. -/
theorem Memory.wfFrom_mono {lo lo' : Nat} {m : Memory} (hl : lo' ≤ lo) (h : Memory.wfFrom lo m = true) :
    Memory.wfFrom lo' m = true := by
  cases m with
  | nil => rfl
  | cons p m =>
    simp only [Memory.wfFrom, Bool.and_eq_true, decide_eq_true_eq] at h ⊢
    exact ⟨⟨⟨by omega, h.1.1.2⟩, h.1.2⟩, h.2⟩

theorem Memory.insert_wfFrom {lo : Nat} {m : Memory} (h : Memory.wfFrom lo m = true) {a : Nat} (hlo : lo ≤ a)
    (ha : a < Config.memSize) (b : Byte) : Memory.wfFrom lo (m.insert a b) = true := by
  induction m generalizing lo with
  | nil =>
    by_cases hb : b = Memory.unlisted
    · simp [Memory.insert, hb, Memory.wfFrom]
    · simp [Memory.insert, hb, Memory.wfFrom, hlo, ha]
  | cons p m ih =>
    obtain ⟨a', b'⟩ := p
    have h' := h
    simp only [Memory.wfFrom, Bool.and_eq_true, decide_eq_true_eq, bne_iff_ne] at h
    obtain ⟨⟨⟨h1, h2⟩, h3⟩, h4⟩ := h
    rw [Memory.insert]
    split
    · rename_i hlt
      split
      · exact h'
      · rename_i hb
        simp only [Memory.wfFrom, Bool.and_eq_true, decide_eq_true_eq, bne_iff_ne]
        exact ⟨⟨⟨hlo, ha⟩, hb⟩, ⟨⟨by omega, h2⟩, h3⟩, h4⟩
    · split
      · rename_i heq
        subst heq
        split
        · exact Memory.wfFrom_mono (by omega) h4
        · rename_i hb
          simp only [Memory.wfFrom, Bool.and_eq_true, decide_eq_true_eq, bne_iff_ne]
          exact ⟨⟨⟨hlo, ha⟩, hb⟩, h4⟩
      · simp only [Memory.wfFrom, Bool.and_eq_true, decide_eq_true_eq, bne_iff_ne]
        exact ⟨⟨⟨h1, h2⟩, h3⟩, ih h4 (by omega)⟩

/-- A write keeps the canonical form, whatever its address. -/
theorem Memory.write_wf {m : Memory} (h : m.wf = true) (a : Nat) (b : Byte) : (m.write a b).wf = true := by
  rw [Memory.write]
  split
  · rename_i ha
    exact Memory.insert_wfFrom h (Nat.zero_le _) ha b
  · exact h

/-- A block write keeps the canonical form, whatever its address and length. -/
theorem Memory.writeBytes_wf {m : Memory} (h : m.wf = true) (a : Nat) (bs : List Byte) :
    (m.writeBytes a bs).wf = true := by
  induction bs generalizing m a with
  | nil => exact h
  | cons b bs ih => exact ih (Memory.write_wf h a b) (a + 1)

theorem Memory.ofBytes_wfFrom {lo a : Nat} (hlo : lo ≤ a) (bs : List Byte)
    (hend : a + bs.length ≤ Config.memSize) : Memory.wfFrom lo (Memory.ofBytes a bs) = true := by
  induction bs generalizing lo a with
  | nil => rfl
  | cons b bs ih =>
    rw [List.length_cons] at hend
    rw [Memory.ofBytes]
    split
    · exact ih (by omega) (by omega)
    · rename_i hb
      simp only [Memory.wfFrom, Bool.and_eq_true, decide_eq_true_eq, bne_iff_ne]
      exact ⟨⟨⟨hlo, by omega⟩, hb⟩, ih (Nat.le_refl _) (by omega)⟩

/-- The memory of a fresh core is canonical, whatever its font table. -/
theorem Memory.reset_wf (font : Font) : (State.resetWith font).mem.wf = true :=
  Memory.ofBytes_wfFrom (Nat.le_refl _) _ (by simp [Config.memSize])

/-! ### Blocks of bytes -/

/-- A read after a block write: inside the block the byte of the list, outside the old byte. -/
theorem Memory.read_writeBytes {m : Memory} (h : m.wf = true) {a : Nat} {bs : List Byte}
    (hend : a + bs.length ≤ Config.memSize) (c : Nat) :
    (m.writeBytes a bs).read c = if h : a ≤ c ∧ c - a < bs.length then bs[c - a]'h.2 else m.read c := by
  induction bs generalizing m a with
  | nil => simp [Memory.writeBytes]
  | cons b bs ih =>
    rw [List.length_cons] at hend
    rw [Memory.writeBytes, ih (Memory.write_wf h a b) (by omega), Memory.read_write h (by omega)]
    by_cases hc : c = a
    · subst hc
      rw [dif_neg (by omega), if_pos rfl, dif_pos ⟨Nat.le_refl _, by simp⟩]
      simp
    · rw [if_neg hc]
      by_cases hin : a + 1 ≤ c ∧ c - (a + 1) < bs.length
      · rw [dif_pos hin, dif_pos ⟨by omega, by rw [List.length_cons]; omega⟩]
        have hca : c - a = (c - (a + 1)) + 1 := by omega
        simp only [hca, List.getElem_cons_succ]
      · rw [dif_neg hin, dif_neg (by rw [List.length_cons]; omega)]

/-- A block write leaves every byte outside the block alone. -/
theorem Memory.read_writeBytes_outside {m : Memory} (h : m.wf = true) {a : Nat} {bs : List Byte}
    (hend : a + bs.length ≤ Config.memSize) {c : Nat} (hc : c < a ∨ a + bs.length ≤ c) :
    (m.writeBytes a bs).read c = m.read c := by
  rw [Memory.read_writeBytes h hend, dif_neg (by omega)]

/-- A block write puts byte `k` of the list at address `a + k`. -/
theorem Memory.read_writeBytes_at {m : Memory} (h : m.wf = true) {a : Nat} {bs : List Byte}
    (hend : a + bs.length ≤ Config.memSize) {k : Nat} (hk : k < bs.length) :
    (m.writeBytes a bs).read (a + k) = bs[k] := by
  rw [Memory.read_writeBytes h hend, dif_pos ⟨by omega, by omega⟩]
  simp only [Nat.add_sub_cancel_left]

@[simp] theorem Memory.length_readBytes (m : Memory) (a n : Nat) : (m.readBytes a n).length = n := by
  induction n generalizing a with
  | zero => rfl
  | succ n ih => rw [Memory.readBytes, List.length_cons, ih]

/-- Byte `k` of a block read is the byte at address `a + k`. -/
theorem Memory.getElem_readBytes (m : Memory) (a n k : Nat) (hk : k < (m.readBytes a n).length) :
    (m.readBytes a n)[k] = m.read (a + k) := by
  induction n generalizing a k with
  | zero => simp at hk
  | succ n ih =>
    cases k with
    | zero => simp [Memory.readBytes]
    | succ k =>
      simp only [Memory.readBytes, List.getElem_cons_succ]
      rw [ih]
      congr 1
      omega

/-- What a memory made from bytes reads as. -/
theorem Memory.read_ofBytes (a : Nat) (bs : List Byte) (c : Nat) :
    (Memory.ofBytes a bs).read c =
      if h : a ≤ c ∧ c - a < bs.length then bs[c - a]'h.2 else Memory.unlisted := by
  induction bs generalizing a with
  | nil => simp [Memory.ofBytes, Memory.read]
  | cons b bs ih =>
    have hstep : (Memory.ofBytes a (b :: bs)).read c =
        if c = a then b else (Memory.ofBytes (a + 1) bs).read c := by
      rw [Memory.ofBytes]
      split
      · rename_i hb
        by_cases hc : c = a
        · rw [if_pos hc, ih, dif_neg (by omega), hb]
        · rw [if_neg hc]
      · rw [Memory.read]
    rw [hstep, ih]
    by_cases hc : c = a
    · subst hc
      rw [if_pos rfl, dif_pos ⟨Nat.le_refl _, by simp⟩]
      simp
    · rw [if_neg hc]
      by_cases hin : a + 1 ≤ c ∧ c - (a + 1) < bs.length
      · rw [dif_pos hin, dif_pos ⟨by omega, by rw [List.length_cons]; omega⟩]
        have hca : c - a = (c - (a + 1)) + 1 := by omega
        simp only [hca, List.getElem_cons_succ]
      · rw [dif_neg hin, dif_neg (by rw [List.length_cons]; omega)]

end Sys2Proof.Machine
end

