-- ==== Sys2Proof/Laws/Display.lean ====
section
/-!
SUPPORT. The laws of the framebuffer: what a cell is after a toggle, after a list of distinct pixels and after a
sprite; and that a sprite touches no cell twice (44_display.md R202, R203(a)).
-/
namespace Sys2Proof.Machine

@[simp] theorem Display.lit_clear (c : Col) (r : Row) : Display.clear.lit c r = false := by
  simp [Display.lit, Display.clear]

/-- A toggle flips its cell and no other. -/
theorem Display.lit_toggle (d : Display) (c c' : Col) (r r' : Row) :
    (d.toggle c r).lit c' r' = if c' = c ∧ r' = r then !d.lit c r else d.lit c' r' := by
  by_cases hr : r' = r
  · subst hr
    by_cases hc : c' = c
    · subst hc
      simp [Display.toggle, Display.lit]
    · have : c.val ≠ c'.val := fun h => hc (Fin.ext h.symm)
      simp [Display.toggle, Display.lit, hc, Vector.getElem_set_ne _ _ this]
  · have : r.val ≠ r'.val := fun h => hr (Fin.ext h.symm)
    simp [Display.toggle, Display.lit, hr, Vector.getElem_set_ne _ _ this]

/-- Drawing distinct pixels flips exactly their cells, and collides exactly when one of them was lit. -/
theorem drawPixels_spec (ps : List (Col × Row)) (hnd : ps.Nodup) (d : Display) (hit : Bool) :
    (∀ c r, (drawPixels d hit ps).1.lit c r = (d.lit c r ^^ decide ((c, r) ∈ ps))) ∧
      (drawPixels d hit ps).2 = (hit || ps.any fun p => d.lit p.1 p.2) := by
  induction ps generalizing d hit with
  | nil => simp [drawPixels]
  | cons p ps ih =>
    obtain ⟨c0, r0⟩ := p
    obtain ⟨hp, hps⟩ := List.nodup_cons.mp hnd
    obtain ⟨h1, h2⟩ := ih hps (d.toggle c0 r0) (hit || d.lit c0 r0)
    rw [drawPixels]
    refine ⟨fun c r => ?_, ?_⟩
    · rw [h1, Display.lit_toggle]
      by_cases hcr : c = c0 ∧ r = r0
      · obtain ⟨rfl, rfl⟩ := hcr
        simp [hp]
      · have : ¬ ((c, r) = (c0, r0)) := fun h => hcr (Prod.mk.inj h)
        simp [hcr, this]
    · rw [h2, List.any_cons, Bool.or_assoc]
      have hany : (ps.any fun p => (d.toggle c0 r0).lit p.1 p.2) = ps.any fun p => d.lit p.1 p.2 := by
        rw [Bool.eq_iff_iff, List.any_eq_true, List.any_eq_true]
        refine exists_congr fun p => and_congr_right fun hmem => ?_
        have hne : ¬ (p.1 = c0 ∧ p.2 = r0) := fun h => hp (by rw [← h.1, ← h.2]; exact hmem)
        rw [Display.lit_toggle, if_neg hne]
      rw [hany]

/-- The cells of one sprite row: its set bits, pixel b at column (cx + b) mod 64. -/
theorem mem_rowPixels {cx : Byte} {row : Row} {byte : Byte} {c : Col} {r : Row} :
    (c, r) ∈ rowPixels cx row byte ↔
      r = row ∧ ∃ b, b < 8 ∧ byte.getLsbD (7 - b) = true ∧ c.val = (cx.toNat + b) % 64 := by
  have h8 : ∀ b, b ∈ [0, 1, 2, 3, 4, 5, 6, 7] ↔ b < 8 := by
    intro b
    simp only [List.mem_cons, List.not_mem_nil, or_false]
    omega
  simp only [rowPixels, List.mem_filterMap, h8]
  constructor
  · rintro ⟨b, hb, h⟩
    split at h
    · rename_i hbit
      simp only [Option.some.injEq, Prod.mk.injEq] at h
      exact ⟨h.2.symm, b, hb, hbit, by rw [← h.1]; rfl⟩
    · cases h
  · rintro ⟨rfl, b, hb, hbit, hc⟩
    refine ⟨b, hb, ?_⟩
    rw [if_pos hbit, show spriteCol cx b = c from Fin.ext hc.symm]

/-- The cells of a sprite: the set bits of its rows, row k at row (cy + k) mod 32. -/
theorem mem_spritePixels {cx cy : Byte} {r0 : Nat} {rows : List Byte} {c : Col} {r : Row} :
    (c, r) ∈ spritePixels cx cy r0 rows ↔
      ∃ k b, ∃ hk : k < rows.length, b < 8 ∧ rows[k].getLsbD (7 - b) = true ∧
        c.val = (cx.toNat + b) % 64 ∧ r.val = (cy.toNat + (r0 + k)) % 32 := by
  induction rows generalizing r0 with
  | nil => simp [spritePixels]
  | cons byte rows ih =>
    rw [spritePixels, List.mem_append, mem_rowPixels, ih]
    constructor
    · rintro (⟨rfl, b, hb, hbit, hc⟩ | ⟨k, b, hk, hb, hbit, hc, hr⟩)
      · exact ⟨0, b, by simp, hb, by simpa using hbit, hc, by simp [spriteRow, Fin.ofNat]⟩
      · refine ⟨k + 1, b, by simpa using hk, hb, by simpa using hbit, hc, ?_⟩
        rw [hr, show r0 + 1 + k = r0 + (k + 1) by omega]
    · rintro ⟨k, b, hk, hb, hbit, hc, hr⟩
      cases k with
      | zero =>
        refine Or.inl ⟨Fin.ext ?_, b, hb, by simpa using hbit, hc⟩
        simpa [spriteRow, Fin.ofNat] using hr
      | succ k =>
        refine Or.inr ⟨k, b, by simpa using hk, hb, by simpa using hbit, hc, ?_⟩
        rw [hr, show r0 + 1 + k = r0 + (k + 1) by omega]

/-- No sprite row touches a cell twice: 8 columns out of 64. -/
theorem rowPixels_nodup (cx : Byte) (row : Row) (byte : Byte) : (rowPixels cx row byte).Nodup := by
  have hidx : List.Pairwise (fun a b : Nat => a < b ∧ b < 8) [0, 1, 2, 3, 4, 5, 6, 7] := by decide
  rw [rowPixels, List.Nodup, List.pairwise_filterMap]
  refine hidx.imp fun {a b} hab p hp q hq => ?_
  split at hp <;> split at hq <;> simp only [Option.some.injEq, reduceCtorEq] at hp hq
  subst hp hq
  intro heq
  have hcol : (cx.toNat + a) % 64 = (cx.toNat + b) % 64 := congrArg (fun p : Col × Row => p.1.val) heq
  omega

/-- No sprite of at most 32 rows touches a cell twice (44_display.md R203(a)). -/
theorem spritePixels_nodup (cx cy : Byte) (r0 : Nat) (rows : List Byte) (hlen : rows.length ≤ 32) :
    (spritePixels cx cy r0 rows).Nodup := by
  induction rows generalizing r0 with
  | nil => exact List.nodup_nil
  | cons byte rows ih =>
    rw [List.length_cons] at hlen
    rw [spritePixels]
    refine List.Nodup.append (rowPixels_nodup _ _ _) (ih (r0 + 1) (by omega)) ?_
    rintro ⟨c, r⟩ h1 h2
    obtain ⟨rfl, -⟩ := mem_rowPixels.mp h1
    obtain ⟨k, -, hk, -, -, -, hr⟩ := mem_spritePixels.mp h2
    simp only [spriteRow, Fin.ofNat] at hr
    omega

/-- A pixel of the sprite read from memory is a cell the sprite covers. -/
theorem mem_spritePixels_readBytes {m : Memory} {a : Nat} {cx cy : Byte} {n : Nat} {c : Col} {r : Row} :
    (c, r) ∈ spritePixels cx cy 0 (m.readBytes a n) ↔ SpriteCovers m a cx cy n c r := by
  rw [mem_spritePixels, SpriteCovers]
  constructor
  · rintro ⟨k, b, hk, hb, hbit, hc, hr⟩
    rw [Memory.getElem_readBytes] at hbit
    exact ⟨k, b, by simpa using hk, hb, hbit, hc, by simpa using hr⟩
  · rintro ⟨k, b, hk, hb, hbit, hc, hr⟩
    exact ⟨k, b, by simpa using hk, hb, by rw [Memory.getElem_readBytes]; exact hbit, hc, by simpa using hr⟩

/-- A drawn sprite flips exactly the cells it covers. -/
theorem Display.lit_draw (d : Display) (m : Memory) (a : Nat) (cx cy : Byte) {n : Nat} (hn : n ≤ 32) (c : Col)
    (r : Row) :
    (SpriteCovers m a cx cy n c r → (d.draw cx cy (m.readBytes a n)).1.lit c r = !d.lit c r) ∧
      (¬ SpriteCovers m a cx cy n c r → (d.draw cx cy (m.readBytes a n)).1.lit c r = d.lit c r) := by
  have hnd := spritePixels_nodup cx cy 0 (m.readBytes a n) (by simpa using hn)
  rw [Display.draw, (drawPixels_spec _ hnd d false).1 c r]
  constructor
  · intro h
    simp [mem_spritePixels_readBytes.mpr h]
  · intro h
    have hmem : (c, r) ∉ spritePixels cx cy 0 (m.readBytes a n) := fun hh => h (mem_spritePixels_readBytes.mp hh)
    simp [hmem]

/-- A draw collides exactly when it covers a lit cell (44_display.md R203(a)). -/
theorem Display.draw_collision (d : Display) (m : Memory) (a : Nat) (cx cy : Byte) {n : Nat} (hn : n ≤ 32) :
    (d.draw cx cy (m.readBytes a n)).2 = true ↔
      ∃ c r, SpriteCovers m a cx cy n c r ∧ d.lit c r = true := by
  have hnd := spritePixels_nodup cx cy 0 (m.readBytes a n) (by simpa using hn)
  rw [Display.draw, (drawPixels_spec _ hnd d false).2, Bool.false_or, List.any_eq_true]
  constructor
  · rintro ⟨⟨c, r⟩, hmem, hlit⟩
    exact ⟨c, r, mem_spritePixels_readBytes.mp hmem, hlit⟩
  · rintro ⟨c, r, hcov, hlit⟩
    exact ⟨(c, r), mem_spritePixels_readBytes.mpr hcov, hlit⟩

/-- Two framebuffers with the same cells are the same. -/
theorem Display.ext_lit {d e : Display} (h : ∀ c r, d.lit c r = e.lit c r) : d = e := by
  apply Vector.ext
  intro r hr
  apply Vector.ext
  intro c hc
  exact h ⟨c, hc⟩ ⟨r, hr⟩

end Sys2Proof.Machine
end

