-- ==== Sys2Proof/Laws/Registers.lean ====
section
/-!
SUPPORT. The laws of the register block: what each register holds after V0 to Vx are loaded, and what the list
of V0 to Vx holds.
-/
namespace Sys2Proof.Machine

theorem setRegs_getElem (v : Vector Byte 16) (k : Nat) (bs : List Byte) (hk : k + bs.length ≤ 16)
    (j : Nat) (hj : j < 16) :
    (setRegs v k bs)[j] = if h : k ≤ j ∧ j - k < bs.length then bs[j - k]'h.2 else v[j] := by
  induction bs generalizing v k with
  | nil => simp [setRegs]
  | cons b bs ih =>
    rw [List.length_cons] at hk
    rw [setRegs, ih _ _ (by omega)]
    by_cases hjk : j = k
    · subst hjk
      rw [dif_neg (by omega), dif_pos ⟨Nat.le_refl _, by simp⟩]
      simp
    · by_cases hin : k + 1 ≤ j ∧ j - (k + 1) < bs.length
      · rw [dif_pos hin, dif_pos ⟨by omega, by rw [List.length_cons]; omega⟩]
        have h2 : j - k = (j - (k + 1)) + 1 := by omega
        simp only [h2, List.getElem_cons_succ]
      · rw [dif_neg hin, dif_neg (by rw [List.length_cons]; omega)]
        rw [Vector.getElem_setIfInBounds, if_neg (fun h => hjk h.symm)]

/-- Loading at most 16 registers: the first ones hold the bytes in order, the others keep their values. -/
theorem State.getV_setVs (s : State) {bs : List Byte} (hlen : bs.length ≤ 16) (k : RegIx) :
    (s.setVs bs).getV k = if h : k.val < bs.length then bs[k.val] else s.getV k := by
  rw [State.getV, State.setVs_v, setRegs_getElem _ _ _ (by omega)]
  by_cases hk : k.val < bs.length
  · rw [dif_pos ⟨Nat.zero_le _, by omega⟩, dif_pos hk]
    simp only [Nat.sub_zero]
  · rw [dif_neg (by omega), dif_neg hk, State.getV]

@[simp] theorem State.length_regsUpTo (s : State) (x : RegIx) : (s.regsUpTo x).length = x.val + 1 := by
  have := x.isLt
  rw [State.regsUpTo, List.length_take, Vector.length_toList]
  omega

/-- Entry `k` of the list of V0 to Vx is V[k]. -/
theorem State.getElem_regsUpTo (s : State) (x : RegIx) (k : Nat) (hk : k < (s.regsUpTo x).length)
    (hk16 : k < 16) : (s.regsUpTo x)[k] = s.getV ⟨k, hk16⟩ := by
  simp [State.regsUpTo, State.getV]

end Sys2Proof.Machine
end

