-- ==== Sys2Proof/Laws/Exec.lean ====
section
/-!
SUPPORT. One lemma per shared operation of the meanings: the ALU as integers, the range check, the key operands,
the fault branches; and, once for all instructions, how a meaning can fault.
-/
namespace Sys2Proof.Machine

/-! ### The ALU as integers (42_alu.md R150 to R153) -/

theorem b2i_eq (c : Bool) : (b2i c).toNat = if c then 1 else 0 := by cases c <;> rfl

theorem add8_result (a b : Byte) : (add8 a b).1.toNat = (a.toNat + b.toNat) % 256 := by
  simp [add8]

theorem add8_carry (a b : Byte) : (add8 a b).2 = if 256 ≤ a.toNat + b.toNat then 1 else 0 := by
  simp [add8, b2i]

theorem sub8_result (a b : Byte) : (sub8 a b).1.toNat = (a.toNat + 256 - b.toNat) % 256 := by
  simp [sub8]

theorem sub8_notBorrow (a b : Byte) : (sub8 a b).2 = if b.toNat ≤ a.toNat then 1 else 0 := by
  simp [sub8, b2i]

theorem shr8_toNat (a : Byte) : (shr8 a).toNat = a.toNat / 2 := by
  simp [shr8, Nat.shiftRight_eq_div_pow]

theorem shl8_toNat (a : Byte) : (shl8 a).toNat = a.toNat * 2 % 256 := by
  simp [shl8, Nat.shiftLeft_eq]

theorem shrOut_toNat (a : Byte) : (shrOut a).toNat = a.toNat % 2 := by
  revert a; decide

theorem shlOut_toNat (a : Byte) : (shlOut a).toNat = a.toNat / 128 := by
  revert a; decide

theorem zextAddr_toNat (nnn : Addr12) : (zextAddr nnn).toNat = nnn.toNat := by
  have := nnn.isLt
  simp only [zextAddr, BitVec.toNat_setWidth]
  omega

theorem zextByte_toNat (b : Byte) : (zextByte b).toNat = b.toNat := by
  have := b.isLt
  simp only [zextByte, BitVec.toNat_setWidth]
  omega

/-- The sum of V0 and nnn never wraps (41_flow.md R128). -/
theorem zextByte_add_zextAddr_toNat (b : Byte) (nnn : Addr12) :
    (zextByte b + zextAddr nnn).toNat = b.toNat + nnn.toNat := by
  have := b.isLt
  have := nnn.isLt
  rw [BitVec.toNat_add, zextByte_toNat, zextAddr_toNat]
  omega

/-! ### The range check (20_memory.md R67) -/

theorem State.blockFault_eq_none {s : State} {n : Nat} (h : s.i.toNat + n ≤ Config.memSize ∨ n = 0) :
    s.blockFault n = none := by
  rw [State.blockFault, if_neg]
  rw [State.ea]
  omega

theorem State.blockFault_eq_some {s : State} {n : Nat} (hn : 0 < n) (h : Config.memSize < s.i.toNat + n) :
    s.blockFault n = some (max s.i.toNat Config.memSize) := by
  rw [State.blockFault, if_pos]
  rw [State.ea]
  omega

/-- What the range check can answer: no fault, and the block is inside memory or empty; or the lowest address
that is not in memory. -/
theorem State.blockFault_cases (s : State) (n : Nat) :
    (s.blockFault n = none ∧ (s.i.toNat + n ≤ Config.memSize ∨ n = 0)) ∨
      (s.blockFault n = some (max s.i.toNat Config.memSize) ∧ 0 < n ∧ Config.memSize < s.i.toNat + n) := by
  by_cases h : s.i.toNat + n ≤ Config.memSize ∨ n = 0
  · exact Or.inl ⟨State.blockFault_eq_none h, h⟩
  · exact Or.inr ⟨State.blockFault_eq_some (by omega) (by omega), by omega, by omega⟩

/-- A block access inside memory has its effect. -/
theorem withBlock_inRange {s : State} {n : Nat} (h : s.i.toNat + n ≤ Config.memSize ∨ n = 0) (i : Instr)
    (k : State) : withBlock i n s k = .next k := by
  rw [withBlock, State.blockFault_eq_none h]

/-- A block access with an address outside memory faults with the lowest such address. -/
theorem withBlock_outOfRange {s : State} {n : Nat} (hn : 0 < n) (h : Config.memSize < s.i.toNat + n) (i : Instr)
    (k : State) : withBlock i n s k =
      .next (s.faulted .memoryOutOfRange (encode i) (some (max s.i.toNat Config.memSize)) none) := by
  rw [withBlock, State.blockFault_eq_some hn h]
  rfl

/-- All a block access can do: its effect, when the block is inside memory or empty; or the fault, with nothing
else done. -/
theorem withBlock_cases {i : Instr} {n : Nat} {s k t : State} (h : withBlock i n s k = .next t) :
    ((s.i.toNat + n ≤ Config.memSize ∨ n = 0) ∧ t = k) ∨
      (0 < n ∧ Config.memSize < s.i.toNat + n ∧
        t = s.faulted .memoryOutOfRange (encode i) (some (max s.i.toNat Config.memSize)) none) := by
  rcases s.blockFault_cases n with ⟨-, hr⟩ | ⟨-, hn, hr⟩
  · rw [withBlock_inRange hr] at h
    cases h
    exact Or.inl ⟨hr, rfl⟩
  · rw [withBlock_outOfRange hn hr] at h
    cases h
    exact Or.inr ⟨hn, hr, rfl⟩

/-! ### Keys (45_timers_keypad.md R220 to R223) -/

theorem keyIndex_of_lt {b : Byte} (h : b.toNat < 16) : keyIndex b = some ⟨b.toNat, h⟩ := by
  rw [keyIndex, dif_pos h]

theorem keyIndex_of_ge {b : Byte} (h : 15 < b.toNat) : keyIndex b = none := by
  rw [keyIndex, dif_neg (by omega)]

/-- With no key pressed the scan finds none. -/
theorem State.lowestKey_eq_none {s : State} (h : ∀ k, s.key k = false) : s.lowestKey = none := by
  rw [State.lowestKey, List.findIdx?_eq_none_iff]
  intro b hb
  obtain ⟨k, hk, rfl⟩ := List.getElem_of_mem hb
  rw [Vector.length_toList] at hk
  simpa [State.key] using h ⟨k, hk⟩

/-- The scan finds the lowest pressed key. -/
theorem State.lowestKey_eq_some {s : State} {k : Fin 16} (hk : s.key k = true)
    (hlow : ∀ j, j < k → s.key j = false) : s.lowestKey = some k.val := by
  rw [State.lowestKey, List.findIdx?_eq_some_iff_getElem]
  refine ⟨by simp, by simpa [State.key] using hk, fun j hj => ?_⟩
  have := hlow ⟨j, by omega⟩ hj
  simpa [State.key] using this

/-! ### The fault branches of the control-flow and keypad meanings -/

theorem execRet_underflow {s : State} (h : s.sp = 0) :
    execRet s = .next (s.faulted .stackUnderflow (encode .ret) none none) := by
  rw [execRet, if_pos h]
  rfl

theorem execRet_pop {s : State} {k : Fin 16} (h : s.sp.toNat = k.val + 1) : execRet s = .next (s.popPc k) := by
  have h0 : s.sp ≠ 0 := by
    intro h0
    rw [h0] at h
    simp at h
  have hk : s.sp.toNat - 1 < 16 := by omega
  rw [execRet, if_neg h0, dif_pos hk]
  congr 2
  exact Fin.ext (by simp [h])

theorem execCall_overflow {s : State} (h : s.sp = 16) (nnn : Addr12) :
    execCall nnn s = .next (s.faulted .stackOverflow (encode (.call nnn)) none none) := by
  rw [execCall, if_pos h]
  rfl

theorem execCall_push {s : State} {k : Fin 16} (h : s.sp.toNat = k.val) (nnn : Addr12) :
    execCall nnn s = .next ((s.push k s.pc).setPc (zextAddr nnn)) := by
  have hk : s.sp.toNat < 16 := by omega
  have h16 : s.sp ≠ 16 := by
    intro h16
    rw [h16] at hk
    simp at hk
  rw [execCall, if_neg h16, dif_pos hk]
  congr 3
  exact Fin.ext h

/-! ### How a meaning can fault -/

/-- The condition under which instruction `i` raises a fault from `s`, and the record's extra fields
(60_exceptions.md R240 to R242). -/
inductive FaultCause (s : State) : Instr → FaultCode → Option Nat → Option Byte → Prop
  | underflow : s.sp = 0 → FaultCause s .ret .stackUnderflow none none
  | overflow (nnn) : s.sp = 16 → FaultCause s (.call nnn) .stackOverflow none none
  | drw (x y n) : 0 < n → Config.memSize < s.i.toNat + n →
      FaultCause s (.drw x y n) .memoryOutOfRange (some (max s.i.toNat Config.memSize)) none
  | ldB (x) : Config.memSize < s.i.toNat + 3 →
      FaultCause s (.ldB x) .memoryOutOfRange (some (max s.i.toNat Config.memSize)) none
  | stRegs (x) : Config.memSize < s.i.toNat + (x.val + 1) →
      FaultCause s (.stRegs x) .memoryOutOfRange (some (max s.i.toNat Config.memSize)) none
  | ldRegs (x) : Config.memSize < s.i.toNat + (x.val + 1) →
      FaultCause s (.ldRegs x) .memoryOutOfRange (some (max s.i.toNat Config.memSize)) none
  | skp (x) : 15 < (s.getV x).toNat → FaultCause s (.skp x) .keyIndexOutOfRange none (some (s.getV x))
  | sknp (x) : 15 < (s.getV x).toNat → FaultCause s (.sknp x) .keyIndexOutOfRange none (some (s.getV x))

/-- Once for all instructions: a meaning that answers a next state leaves the fault latch alone, or it faults for
one of the causes and then changes nothing but pc, put back, and the latch. -/
theorem exec_keepsFault_or_faults {i : Instr} {s t : State} (h : exec i s = .next t) :
    t.fault = s.fault ∨
      ∃ code addr value, FaultCause s i code addr value ∧ t = s.faulted code (encode i) addr value := by
  have hblock : ∀ (i : Instr) (n : Nat) (k : State), withBlock i n s k = .next t → k.fault = s.fault →
      t.fault = s.fault ∨ (0 < n ∧ Config.memSize < s.i.toNat + n ∧
        t = s.faulted .memoryOutOfRange (encode i) (some (max s.i.toNat Config.memSize)) none) := by
    intro i n k h hk
    rcases withBlock_cases h with ⟨-, rfl⟩ | hf
    · exact Or.inl hk
    · exact Or.inr hf
  cases i with
  | ret =>
    simp only [exec, execRet] at h
    split at h
    · rename_i h0
      cases h
      exact Or.inr ⟨_, _, _, .underflow h0, rfl⟩
    · split at h
      · cases h
        exact Or.inl rfl
      · cases h
  | call nnn =>
    simp only [exec, execCall] at h
    split at h
    · rename_i h0
      cases h
      exact Or.inr ⟨_, _, _, .overflow nnn h0, rfl⟩
    · split at h
      · cases h
        exact Or.inl rfl
      · cases h
  | drw x y n =>
    rcases hblock _ _ _ h rfl with h | ⟨hn, hr, ht⟩
    · exact Or.inl h
    · exact Or.inr ⟨_, _, _, .drw x y n hn hr, ht⟩
  | ldB x =>
    rcases hblock _ _ _ h rfl with h | ⟨-, hr, ht⟩
    · exact Or.inl h
    · exact Or.inr ⟨_, _, _, .ldB x hr, ht⟩
  | stRegs x =>
    rcases hblock _ _ _ h rfl with h | ⟨-, hr, ht⟩
    · exact Or.inl h
    · exact Or.inr ⟨_, _, _, .stRegs x hr, ht⟩
  | ldRegs x =>
    rcases hblock _ _ _ h rfl with h | ⟨-, hr, ht⟩
    · exact Or.inl h
    · exact Or.inr ⟨_, _, _, .ldRegs x hr, ht⟩
  | skp x =>
    by_cases hx : (s.getV x).toNat < 16
    · simp only [exec, execSkp, keyIndex_of_lt hx, State.skipIf_eq] at h
      cases h
      exact Or.inl rfl
    · simp only [exec, execSkp, keyIndex_of_ge (Nat.lt_of_not_le (by omega) : 15 < (s.getV x).toNat)] at h
      cases h
      exact Or.inr ⟨_, _, _, .skp x (by omega), rfl⟩
  | sknp x =>
    by_cases hx : (s.getV x).toNat < 16
    · simp only [exec, execSknp, keyIndex_of_lt hx, State.skipIf_eq] at h
      cases h
      exact Or.inl rfl
    · simp only [exec, execSknp, keyIndex_of_ge (Nat.lt_of_not_le (by omega) : 15 < (s.getV x).toNat)] at h
      cases h
      exact Or.inr ⟨_, _, _, .sknp x (by omega), rfl⟩
  | ldK x =>
    simp only [exec, execLdK] at h
    split at h <;> cases h <;> exact Or.inl rfl
  | seImm x nn => simp only [exec, execSeImm, State.skipIf_eq] at h; cases h; exact Or.inl rfl
  | sneImm x nn => simp only [exec, execSneImm, State.skipIf_eq] at h; cases h; exact Or.inl rfl
  | seReg x y => simp only [exec, execSeReg, State.skipIf_eq] at h; cases h; exact Or.inl rfl
  | sneReg x y => simp only [exec, execSneReg, State.skipIf_eq] at h; cases h; exact Or.inl rfl
  | _ => cases h; exact Or.inl rfl

end Sys2Proof.Machine
end

