-- ==== Sys2Proof/Laws/PerInstr.lean ====
section
/-!
SUPPORT. A law of every instruction as syntax: the word it is encoded as has the fixed bits of its row of the opcode
map (30_encoding.md R83), one lemma per constructor.
-/

/-- The word of an instruction carries its row's pattern under its row's mask. -/
def Sys2Proof.Laws.RowBits.Statement (i : Sys2Proof.Instr) : Prop :=
  Sys2Proof.encode i &&& i.row.mask = i.row.pattern

namespace Sys2Proof.Laws

open Sys2Proof

theorem RowBits.nop : RowBits.Statement (.nop) := rfl

theorem RowBits.cls : RowBits.Statement (.cls) := rfl

theorem RowBits.ret : RowBits.Statement (.ret) := rfl

theorem RowBits.jp (nnn : Addr12) : RowBits.Statement (.jp nnn) := by
  show encode (.jp nnn) &&& 0xF000 = 0x1000
  rw [and_F000, encode, fieldO_packNNN]
  rfl

theorem RowBits.call (nnn : Addr12) : RowBits.Statement (.call nnn) := by
  show encode (.call nnn) &&& 0xF000 = 0x2000
  rw [and_F000, encode, fieldO_packNNN]
  rfl

theorem RowBits.seImm (x : RegIx) (nn : Byte) : RowBits.Statement (.seImm x nn) := by
  show encode (.seImm x nn) &&& 0xF000 = 0x3000
  rw [and_F000, encode, fieldO_packXNN]
  rfl

theorem RowBits.sneImm (x : RegIx) (nn : Byte) : RowBits.Statement (.sneImm x nn) := by
  show encode (.sneImm x nn) &&& 0xF000 = 0x4000
  rw [and_F000, encode, fieldO_packXNN]
  rfl

theorem RowBits.seReg (x y : RegIx) : RowBits.Statement (.seReg x y) := by
  show encode (.seReg x y) &&& 0xF00F = 0x5000
  rw [and_F00F, encode, fieldO_packXYN, fieldN_packXYN]
  rfl

theorem RowBits.ldImm (x : RegIx) (nn : Byte) : RowBits.Statement (.ldImm x nn) := by
  show encode (.ldImm x nn) &&& 0xF000 = 0x6000
  rw [and_F000, encode, fieldO_packXNN]
  rfl

theorem RowBits.addImm (x : RegIx) (nn : Byte) : RowBits.Statement (.addImm x nn) := by
  show encode (.addImm x nn) &&& 0xF000 = 0x7000
  rw [and_F000, encode, fieldO_packXNN]
  rfl

theorem RowBits.ldReg (x y : RegIx) : RowBits.Statement (.ldReg x y) := by
  show encode (.ldReg x y) &&& 0xF00F = 0x8000
  rw [and_F00F, encode, fieldO_packXYN, fieldN_packXYN]
  rfl

theorem RowBits.or (x y : RegIx) : RowBits.Statement (.or x y) := by
  show encode (.or x y) &&& 0xF00F = 0x8001
  rw [and_F00F, encode, fieldO_packXYN, fieldN_packXYN]
  rfl

theorem RowBits.and (x y : RegIx) : RowBits.Statement (.and x y) := by
  show encode (.and x y) &&& 0xF00F = 0x8002
  rw [and_F00F, encode, fieldO_packXYN, fieldN_packXYN]
  rfl

theorem RowBits.xor (x y : RegIx) : RowBits.Statement (.xor x y) := by
  show encode (.xor x y) &&& 0xF00F = 0x8003
  rw [and_F00F, encode, fieldO_packXYN, fieldN_packXYN]
  rfl

theorem RowBits.addReg (x y : RegIx) : RowBits.Statement (.addReg x y) := by
  show encode (.addReg x y) &&& 0xF00F = 0x8004
  rw [and_F00F, encode, fieldO_packXYN, fieldN_packXYN]
  rfl

theorem RowBits.sub (x y : RegIx) : RowBits.Statement (.sub x y) := by
  show encode (.sub x y) &&& 0xF00F = 0x8005
  rw [and_F00F, encode, fieldO_packXYN, fieldN_packXYN]
  rfl

theorem RowBits.shr (x y : RegIx) : RowBits.Statement (.shr x y) := by
  show encode (.shr x y) &&& 0xF00F = 0x8006
  rw [and_F00F, encode, fieldO_packXYN, fieldN_packXYN]
  rfl

theorem RowBits.subn (x y : RegIx) : RowBits.Statement (.subn x y) := by
  show encode (.subn x y) &&& 0xF00F = 0x8007
  rw [and_F00F, encode, fieldO_packXYN, fieldN_packXYN]
  rfl

theorem RowBits.shl (x y : RegIx) : RowBits.Statement (.shl x y) := by
  show encode (.shl x y) &&& 0xF00F = 0x800E
  rw [and_F00F, encode, fieldO_packXYN, fieldN_packXYN]
  rfl

theorem RowBits.sneReg (x y : RegIx) : RowBits.Statement (.sneReg x y) := by
  show encode (.sneReg x y) &&& 0xF00F = 0x9000
  rw [and_F00F, encode, fieldO_packXYN, fieldN_packXYN]
  rfl

theorem RowBits.ldI (nnn : Addr12) : RowBits.Statement (.ldI nnn) := by
  show encode (.ldI nnn) &&& 0xF000 = 0xA000
  rw [and_F000, encode, fieldO_packNNN]
  rfl

theorem RowBits.jpV0 (nnn : Addr12) : RowBits.Statement (.jpV0 nnn) := by
  show encode (.jpV0 nnn) &&& 0xF000 = 0xB000
  rw [and_F000, encode, fieldO_packNNN]
  rfl

theorem RowBits.rnd (x : RegIx) (nn : Byte) : RowBits.Statement (.rnd x nn) := by
  show encode (.rnd x nn) &&& 0xF000 = 0xC000
  rw [and_F000, encode, fieldO_packXNN]
  rfl

theorem RowBits.drw (x y : RegIx) (n : Nat) : RowBits.Statement (.drw x y n) := by
  show encode (.drw x y n) &&& 0xF000 = 0xD000
  rw [and_F000, encode, fieldO_packXYN]
  rfl

theorem RowBits.skp (x : RegIx) : RowBits.Statement (.skp x) := by
  show encode (.skp x) &&& 0xF0FF = 0xE09E
  rw [and_F0FF, encode, fieldO_packXNN, fieldNN_packXNN]
  rfl

theorem RowBits.sknp (x : RegIx) : RowBits.Statement (.sknp x) := by
  show encode (.sknp x) &&& 0xF0FF = 0xE0A1
  rw [and_F0FF, encode, fieldO_packXNN, fieldNN_packXNN]
  rfl

theorem RowBits.ldVxDt (x : RegIx) : RowBits.Statement (.ldVxDt x) := by
  show encode (.ldVxDt x) &&& 0xF0FF = 0xF007
  rw [and_F0FF, encode, fieldO_packXNN, fieldNN_packXNN]
  rfl

theorem RowBits.ldK (x : RegIx) : RowBits.Statement (.ldK x) := by
  show encode (.ldK x) &&& 0xF0FF = 0xF00A
  rw [and_F0FF, encode, fieldO_packXNN, fieldNN_packXNN]
  rfl

theorem RowBits.ldDt (x : RegIx) : RowBits.Statement (.ldDt x) := by
  show encode (.ldDt x) &&& 0xF0FF = 0xF015
  rw [and_F0FF, encode, fieldO_packXNN, fieldNN_packXNN]
  rfl

theorem RowBits.ldSt (x : RegIx) : RowBits.Statement (.ldSt x) := by
  show encode (.ldSt x) &&& 0xF0FF = 0xF018
  rw [and_F0FF, encode, fieldO_packXNN, fieldNN_packXNN]
  rfl

theorem RowBits.addI (x : RegIx) : RowBits.Statement (.addI x) := by
  show encode (.addI x) &&& 0xF0FF = 0xF01E
  rw [and_F0FF, encode, fieldO_packXNN, fieldNN_packXNN]
  rfl

theorem RowBits.ldF (x : RegIx) : RowBits.Statement (.ldF x) := by
  show encode (.ldF x) &&& 0xF0FF = 0xF029
  rw [and_F0FF, encode, fieldO_packXNN, fieldNN_packXNN]
  rfl

theorem RowBits.ldB (x : RegIx) : RowBits.Statement (.ldB x) := by
  show encode (.ldB x) &&& 0xF0FF = 0xF033
  rw [and_F0FF, encode, fieldO_packXNN, fieldNN_packXNN]
  rfl

theorem RowBits.stRegs (x : RegIx) : RowBits.Statement (.stRegs x) := by
  show encode (.stRegs x) &&& 0xF0FF = 0xF055
  rw [and_F0FF, encode, fieldO_packXNN, fieldNN_packXNN]
  rfl

theorem RowBits.ldRegs (x : RegIx) : RowBits.Statement (.ldRegs x) := by
  show encode (.ldRegs x) &&& 0xF0FF = 0xF065
  rw [and_F0FF, encode, fieldO_packXNN, fieldNN_packXNN]
  rfl

end Sys2Proof.Laws
end

