-- ==== Sys2Proof/Laws/Step.lean ====
section
/-!
SUPPORT. What one tick can do, said once, and what the fetch can answer (40_cycle.md R100 to R104).
-/
namespace Sys2Proof.Machine

/-- The word at pc, as a number (40_cycle.md R101). -/
theorem State.fetchWord_toNat (s : State) :
    s.fetchWord.toNat = (s.mem.read s.pc.toNat).toNat * 256 + (s.mem.read (s.pc.toNat + 1)).toNat := by
  rw [State.fetchWord, wordOfBytes_toNat]

/-- A fetch reads at each of its two addresses what memory reads there. -/
theorem State.fetchesAt {s : State} {a : Nat} {b : Byte} (h : s.mem.read a = b) : FetchesAt s a b := by
  constructor
  · rintro rfl
    rw [State.fetchWord, highByte_wordOfBytes, h]
  · rintro rfl
    rw [State.fetchWord, lowByte_wordOfBytes, h]

/-- The fetch and decode answer an instruction exactly when pc is in range and the word decodes to it. -/
theorem State.fetchDecode_ok {s : State} {i : Instr} :
    s.fetchDecode = .ok i ↔ s.pc.toNat + 1 < Config.memSize ∧ decode s.fetchWord = .ok i := by
  rw [State.fetchDecode, State.fetchInRange]
  by_cases h : s.pc.toNat + 1 < Config.memSize
  · simp only [decide_eq_true h, if_true]
    cases hd : decode s.fetchWord with
    | ok j => simp [h]
    | error e => simp
  · simp [h]

/-- The two faults of the fetch and decode. -/
theorem State.fetchDecode_error {s : State} {r : FaultRecord} (h : s.fetchDecode = .error r) :
    (Config.memSize ≤ s.pc.toNat + 1 ∧
        r = { code := .pcOutOfRange, pc := s.pc, word := none, addr := none, value := none }) ∨
      (s.pc.toNat + 1 < Config.memSize ∧ (∃ e, decode s.fetchWord = .error e) ∧
        r = { code := .decodeFault, pc := s.pc, word := some s.fetchWord, addr := none, value := none }) := by
  rw [State.fetchDecode, State.fetchInRange] at h
  by_cases hr : s.pc.toNat + 1 < Config.memSize
  · simp only [decide_eq_true hr, if_true] at h
    cases hd : decode s.fetchWord with
    | ok j => rw [hd] at h; cases h
    | error e => rw [hd] at h; cases h; exact Or.inr ⟨hr, ⟨e, rfl⟩, rfl⟩
  · simp only [hr, decide_false, Bool.false_eq_true, if_false] at h
    cases h
    exact Or.inl ⟨Nat.le_of_not_lt hr, rfl⟩

/-- What a tick that answers a next state has done: nothing, under a latched fault; latched the fault of its fetch
or decode; or run the decoded instruction from the state the fetch leaves. -/
theorem step_cases {s t : State} (h : step s = .next t) :
    (∃ r, s.fault = some r ∧ t = s) ∨
      (s.fault = none ∧ ∃ r, s.fetchDecode = .error r ∧ t = s.commitFault r) ∨
      (s.fault = none ∧ ∃ i, s.fetchDecode = .ok i ∧ exec i s.advance = .next t) := by
  rw [step] at h
  cases hf : s.fault with
  | some r =>
    rw [hf] at h
    cases h
    exact Or.inl ⟨r, rfl, rfl⟩
  | none =>
    rw [hf] at h
    cases hd : s.fetchDecode with
    | error r =>
      rw [hd] at h
      cases h
      exact Or.inr (Or.inl ⟨rfl, r, rfl, rfl⟩)
    | ok i =>
      rw [hd] at h
      exact Or.inr (Or.inr ⟨rfl, i, rfl, h⟩)

end Sys2Proof.Machine
end

