-- ==== Sys2Proof/Tests/Slice0.lean ====
section
/-!
SUPPORT. Tests: ill-formed terms refused, words written out from 30_encoding.md R83, one or two ticks per
instruction with the results of spec/95_test_vectors.md (named V-...), the host commands, and for every statement
with hypotheses a state and operands that meet them (named test_witness_...).
-/
namespace Sys2Proof.Tests

open Sys2Proof.Machine

/-! ### Helpers -/

/-- The state after reset without the font bytes. -/
def start : State := { State.reset with mem := [] }

/-- `start` with the given registers, from V0 up. -/
def regs (bs : List Byte) : State := start.setVs bs

/-- The given bytes stored from address `a` up. -/
def holding (s : State) (a : Nat) (bs : List Byte) : State := s.setMem (s.mem.writeBytes a bs)

/-- The given keys pressed. -/
def pressing (s : State) (ks : List (Fin 16)) : State :=
  { s with keys := ks.foldl (fun v k => v.set k.val true) s.keys }

/-- One cell flipped. -/
def flipping (s : State) (c : Col) (r : Row) : State := s.setDisplay (s.display.toggle c r)

/-- An outcome is a next state that passes a check. -/
def ends (o : StepOutcome) (p : State → Bool) : Bool :=
  match o with
  | .next t => p t
  | .fault _ => false
  | .refused _ => false

/-- One tick with the word `w` at pc ends in a next state that passes a check. -/
def tick (w : Nat) (s : State) (p : State → Bool) : Bool := ends (step (s.withFetchWord 16 w)) p

/-- A host command, with the default FONT, ends in a state and a reply that pass a check. -/
def does (c : Command) (s : State) (p : State → Reply → Bool) : Bool :=
  match command Config.defaultFont c s with
  | .next (t, reply) => p t reply
  | .fault _ => false
  | .refused _ => false

/-- What passes a check is a next state. -/
theorem next_of_ends {o : StepOutcome} {P : State → Prop} [DecidablePred P]
    (h : ends o (fun t => decide (P t)) = true) : ∃ t, o = .next t ∧ P t := by
  cases o with
  | next t => exact ⟨t, rfl, of_decide_eq_true h⟩
  | fault r => cases h
  | refused r => cases h

/-! ### WellFormed -/

theorem test_wellFormed_refuses_16_rows : wellFormed (.drw 0 0 16) = false := by decide

theorem test_wellFormed_takes_15_rows : wellFormed (.drw 15 15 15) = true := by decide

/-! ### Decoding: words written out from R83 -/

theorem test_decode_flow :
    decodeTableWord 16 0x0000 = some .nop ∧ decodeTableWord 16 0x00EE = some .ret ∧
      decodeTableWord 16 0x1ABC = some (.jp 0xABC) ∧ decodeTableWord 16 0x2ABC = some (.call 0xABC) ∧
      decodeTableWord 16 0x3A2B = some (.seImm 10 0x2B) ∧ decodeTableWord 16 0x4A2B = some (.sneImm 10 0x2B) ∧
      decodeTableWord 16 0x5120 = some (.seReg 1 2) ∧ decodeTableWord 16 0x9120 = some (.sneReg 1 2) ∧
      decodeTableWord 16 0xBFFF = some (.jpV0 0xFFF) := by decide

theorem test_decode_alu :
    decodeTableWord 16 0x6A2B = some (.ldImm 10 0x2B) ∧ decodeTableWord 16 0x71FF = some (.addImm 1 0xFF) ∧
      decodeTableWord 16 0x8120 = some (.ldReg 1 2) ∧ decodeTableWord 16 0x8121 = some (.or 1 2) ∧
      decodeTableWord 16 0x8122 = some (.and 1 2) ∧ decodeTableWord 16 0x8123 = some (.xor 1 2) ∧
      decodeTableWord 16 0x8124 = some (.addReg 1 2) ∧ decodeTableWord 16 0x8125 = some (.sub 1 2) ∧
      decodeTableWord 16 0x8126 = some (.shr 1 2) ∧ decodeTableWord 16 0x8127 = some (.subn 1 2) ∧
      decodeTableWord 16 0x812E = some (.shl 1 2) ∧ decodeTableWord 16 0xC30F = some (.rnd 3 0x0F) := by decide

theorem test_decode_index_memory :
    decodeTableWord 16 0xA123 = some (.ldI 0x123) ∧ decodeTableWord 16 0xF21E = some (.addI 2) ∧
      decodeTableWord 16 0xF329 = some (.ldF 3) ∧ decodeTableWord 16 0xF433 = some (.ldB 4) ∧
      decodeTableWord 16 0xFF55 = some (.stRegs 15) ∧ decodeTableWord 16 0xF265 = some (.ldRegs 2) := by decide

theorem test_decode_display :
    decodeTableWord 16 0x00E0 = some .cls ∧ decodeTableWord 16 0xDAB5 = some (.drw 10 11 5) := by decide

theorem test_decode_keypad_timers :
    decodeTableWord 16 0xE59E = some (.skp 5) ∧ decodeTableWord 16 0xE5A1 = some (.sknp 5) ∧
      decodeTableWord 16 0xF107 = some (.ldVxDt 1) ∧ decodeTableWord 16 0xF30A = some (.ldK 3) ∧
      decodeTableWord 16 0xF215 = some (.ldDt 2) ∧ decodeTableWord 16 0xF218 = some (.ldSt 2) := by decide

/-- V-E1 to V-E16: every Invalid word of the spec's list. -/
theorem test_decode_invalid :
    ∀ w ∈ [0x0001, 0x00E1, 0x00EF, 0x0FFF, 0x5121, 0x512F, 0x8008, 0x800D] ++
      [0x800F, 0x9121, 0xE09F, 0xE0A0, 0xF000, 0xF0FF, 0xFF08, 0xFF66],
      decodeTableWord 16 w = none := by decide

/-! ### Reset and memory -/

theorem test_reset_inv : State.reset.Inv :=
  ⟨Memory.reset_wf _, by decide, fun _ h => by cases h⟩

/-- R61, R38: the font from 0x000 with nothing after its 80 bytes. -/
theorem test_reset_memory :
    State.reset.mem.readBytes 0 5 = [0xF0, 0x90, 0x90, 0x90, 0xF0] ∧ State.reset.mem.read 0x04F = 0x80 ∧
      State.reset.mem.read 0x050 = 0 ∧ State.reset.mem.read 0x200 = 0 := by decide

/-- A byte written back to what an unlisted address reads as leaves no entry. -/
theorem test_memory_canonical :
    (Memory.write [(1, 7), (5, 9)] 3 4 : Memory) = [(1, 7), (3, 4), (5, 9)] ∧
      (Memory.write [(1, 7), (5, 9)] 1 0 : Memory) = [(5, 9)] ∧
      Memory.wf [(5, 1), (3, 1)] = false ∧ Memory.wf [(3, 0)] = false ∧ Memory.wf [(4096, 1)] = false := by decide

/-- The first instruction after reset, with nothing placed, is the NOP of two zero bytes (V-F1, V-H16). -/
theorem test_reset_steps : ends (step State.reset) (fun t => t.pc == 0x202 && t.fault == none) = true := by decide

/-! ### Faults of the fetch and the decode -/

/-- V-F24, V-F25: pc = 0xFFF and pc = 0x1000. -/
theorem test_fetch_out_of_range :
    ends (step (start.setPc 0xFFF)) (fun t =>
        t.pc == 0xFFF && t.fault == some ⟨.pcOutOfRange, 0xFFF, none, none, none⟩) = true ∧
      ends (step (start.setPc 0x1000)) (fun t =>
        t.pc == 0x1000 && t.fault == some ⟨.pcOutOfRange, 0x1000, none, none, none⟩) = true := by decide

/-- V-E5: an Invalid word. -/
theorem test_decode_fault :
    tick 0x5121 start (fun t =>
      t.pc == 0x200 && t.fault == some ⟨.decodeFault, 0x200, some 0x5121, none, none⟩) = true := by decide

/-! ### Control flow (V-F1 to V-F23) -/

theorem test_nop : tick 0x0000 start (fun t => t.pc == 0x202) = true := by decide

theorem test_jp : tick 0x1ABC start (fun t => t.pc == 0xABC) = true := by decide

theorem test_jp_odd : tick 0x1201 start (fun t => t.pc == 0x201 && t.fault == none) = true := by decide

theorem test_call_last_slot :
    tick 0x2300 { start with sp := 15 } (fun t => t.slot 15 == 0x202 && t.sp == 16 && t.pc == 0x300) = true := by
  decide

theorem test_call_overflow :
    tick 0x2300 { start with sp := 16 } (fun t => t.pc == 0x200 && t.sp == 16 &&
      t.fault == some ⟨.stackOverflow, 0x200, some 0x2300, none, none⟩) = true := by decide

theorem test_ret :
    tick 0x00EE { start with sp := 1, stack := start.stack.set 0 0x206 } (fun t =>
      t.sp == 0 && t.pc == 0x206 && t.slot 0 == 0x206) = true := by decide

theorem test_ret_underflow :
    tick 0x00EE start (fun t => t.pc == 0x200 && t.sp == 0 &&
      t.fault == some ⟨.stackUnderflow, 0x200, some 0x00EE, none, none⟩) = true := by decide

theorem test_seImm :
    tick 0x302B (regs [0x2B]) (fun t => t.pc == 0x204) = true ∧
      tick 0x302B (regs [0x2C]) (fun t => t.pc == 0x202) = true := by decide

/-- V-F22, V-F23: a skip at the end of memory sets pc beyond it without a fault. -/
theorem test_seImm_end_of_memory :
    tick 0x3000 (start.setPc 0xFFC) (fun t => t.pc == 0x1000 && t.fault == none) = true ∧
      tick 0x3000 (start.setPc 0xFFE) (fun t => t.pc == 0x1002 && t.fault == none) = true := by decide

theorem test_sneImm :
    tick 0x402B (regs [0x2B]) (fun t => t.pc == 0x202) = true ∧
      tick 0x402B (regs [0x2C]) (fun t => t.pc == 0x204) = true := by decide

theorem test_seReg :
    tick 0x5120 (regs [0, 7, 7]) (fun t => t.pc == 0x204) = true ∧
      tick 0x5120 (regs [0, 7, 8]) (fun t => t.pc == 0x202) = true ∧
      tick 0x5110 (regs [0, 9]) (fun t => t.pc == 0x204) = true := by decide

theorem test_sneReg :
    tick 0x9120 (regs [0, 7, 8]) (fun t => t.pc == 0x204) = true ∧
      tick 0x9120 (regs [0, 7, 7]) (fun t => t.pc == 0x202) = true := by decide

theorem test_jpV0 :
    tick 0xB300 (regs [0x12]) (fun t => t.pc == 0x312) = true ∧
      tick 0xBFFF (regs [0xFF]) (fun t => t.pc == 0x10FE && t.fault == none) = true := by decide

/-! ### Registers and ALU (V-A1 to V-A37) -/

theorem test_ldImm : tick 0x6A2B start (fun t => t.getV 10 == 0x2B && t.pc == 0x202) = true := by decide

theorem test_addImm_wraps_without_flag :
    tick 0x7103 ((regs [0, 0xFE]).setVF 0x55) (fun t => t.getV 1 == 0x01 && t.getV 15 == 0x55) = true := by decide

theorem test_ldReg : tick 0x8120 (regs [0, 0, 0x11]) (fun t => t.getV 1 == 0x11 && t.getV 2 == 0x11) = true := by
  decide

theorem test_or :
    tick 0x8011 ((regs [0x0C, 0x0A]).setVF 0x77) (fun t => t.getV 0 == 0x0E && t.getV 15 == 0x77) = true := by decide

theorem test_and : tick 0x8012 (regs [0x0C, 0x0A]) (fun t => t.getV 0 == 0x08) = true := by decide

theorem test_xor :
    tick 0x8013 (regs [0x0C, 0x0A]) (fun t => t.getV 0 == 0x06) = true ∧
      tick 0x8003 (regs [0x5A]) (fun t => t.getV 0 == 0x00) = true := by decide

/-- V-A11, V-A12, V-A13, V-A15. -/
theorem test_addReg :
    tick 0x8014 (regs [0xFF, 0x01]) (fun t => t.getV 0 == 0x00 && t.getV 15 == 1) = true ∧
      tick 0x8014 (regs [0x7F, 0x80]) (fun t => t.getV 0 == 0xFF && t.getV 15 == 0) = true ∧
      tick 0x8014 (regs [0x80, 0x80]) (fun t => t.getV 0 == 0x00 && t.getV 15 == 1) = true ∧
      tick 0x8004 (regs [0x80]) (fun t => t.getV 0 == 0x00 && t.getV 15 == 1) = true := by decide

/-- V-A16, V-A17, V-A18: VF as a destination and as a source. -/
theorem test_addReg_vf :
    tick 0x8F14 ((regs [0, 0x01]).setVF 0xFF) (fun t => t.getV 15 == 1) = true ∧
      tick 0x8F14 ((regs [0, 0x01]).setVF 0x10) (fun t => t.getV 15 == 0) = true ∧
      tick 0x80F4 ((regs [0x10]).setVF 0x01) (fun t => t.getV 0 == 0x11 && t.getV 15 == 0) = true := by decide

/-- V-A19, V-A20, V-A21. -/
theorem test_sub :
    tick 0x8015 (regs [5, 3]) (fun t => t.getV 0 == 0x02 && t.getV 15 == 1) = true ∧
      tick 0x8015 (regs [3, 5]) (fun t => t.getV 0 == 0xFE && t.getV 15 == 0) = true ∧
      tick 0x8015 (regs [7, 7]) (fun t => t.getV 0 == 0x00 && t.getV 15 == 1) = true := by decide

/-- V-A23. -/
theorem test_sub_vf : tick 0x8F15 ((regs [0, 5]).setVF 3) (fun t => t.getV 15 == 0) = true := by decide

/-- V-A24, V-A25, V-A26. -/
theorem test_shr :
    tick 0x8016 (regs [0x05]) (fun t => t.getV 0 == 0x02 && t.getV 15 == 1) = true ∧
      tick 0x8016 ((regs [0x04]).setVF 1) (fun t => t.getV 0 == 0x02 && t.getV 15 == 0) = true ∧
      tick 0x8016 (regs [0x81, 0x33]) (fun t => t.getV 0 == 0x40 && t.getV 1 == 0x33 && t.getV 15 == 1) = true := by
  decide

/-- V-A27. -/
theorem test_shr_vf : tick 0x8F06 (start.setVF 0x03) (fun t => t.getV 15 == 0) = true := by decide

/-- V-A28, V-A29, V-A30. -/
theorem test_subn :
    tick 0x8017 (regs [3, 5]) (fun t => t.getV 0 == 0x02 && t.getV 15 == 1) = true ∧
      tick 0x8017 (regs [5, 3]) (fun t => t.getV 0 == 0xFE && t.getV 15 == 0) = true ∧
      tick 0x8017 (regs [9, 9]) (fun t => t.getV 0 == 0x00 && t.getV 15 == 1) = true := by decide

/-- V-A31. -/
theorem test_subn_vf : tick 0x8F17 ((regs [0, 5]).setVF 3) (fun t => t.getV 15 == 1) = true := by decide

/-- V-A32, V-A33. -/
theorem test_shl :
    tick 0x801E (regs [0x81]) (fun t => t.getV 0 == 0x02 && t.getV 15 == 1) = true ∧
      tick 0x801E ((regs [0x41]).setVF 1) (fun t => t.getV 0 == 0x82 && t.getV 15 == 0) = true := by decide

/-- V-A34, V-A35. -/
theorem test_shl_vf :
    tick 0x8F0E (start.setVF 0x81) (fun t => t.getV 15 == 0x02) = true ∧
      tick 0x8F0E (start.setVF 0x01) (fun t => t.getV 15 == 0x00) = true := by decide

/-- V-A36 to V-A38, for every draw: the tick writes the next draw masked, and counts it. -/
theorem test_rnd :
    ∃ t, step (start.withFetchWord 16 0xC30F) = .next t ∧ t.getV 3 = Config.draw 0 &&& 0x0F ∧ t.draws = 1 :=
  ⟨_, rfl, rfl, rfl⟩

/-! ### Index register and memory (V-M1 to V-M22) -/

theorem test_ldI : tick 0xA123 start (fun t => t.i == 0x123) = true := by decide

/-- V-M2, V-M3, V-M4. -/
theorem test_addI :
    tick 0xF01E ((regs [0x01]).setI 0x0FFF) (fun t => t.i == 0x1000 && t.fault == none) = true ∧
      tick 0xF01E ((regs [0x02]).setI 0xFFFF) (fun t => t.i == 0x0001) = true ∧
      tick 0xF01E (((regs [0xFF]).setI 0x0100).setVF 9) (fun t => t.i == 0x01FF && t.getV 15 == 9) = true := by decide

/-- V-M5, V-M6. -/
theorem test_ldF :
    tick 0xF029 (regs [0x0A]) (fun t => t.i == 0x032) = true ∧
      tick 0xF029 (regs [0xFF]) (fun t => t.i == 0x4FB) = true := by decide

/-- V-M7, V-M10. -/
theorem test_ldB :
    tick 0xF033 ((regs [253]).setI 0x300) (fun t => t.mem.readBytes 0x300 3 == [2, 5, 3] && t.i == 0x300) = true ∧
      tick 0xF033 ((regs [100]).setI 0xFFD) (fun t => t.mem.readBytes 0xFFD 3 == [1, 0, 0]) = true := by decide

/-- V-M11, V-M12. -/
theorem test_ldB_out_of_range :
    tick 0xF033 ((regs [100]).setI 0xFFE) (fun t => t.mem.readBytes 0xFFE 2 == [0, 0] && t.pc == 0x200 &&
        t.fault == some ⟨.memoryOutOfRange, 0x200, some 0xF033, some 0x1000, none⟩) = true ∧
      tick 0xF033 ((regs [100]).setI 0x2000) (fun t =>
        t.fault == some ⟨.memoryOutOfRange, 0x200, some 0xF033, some 0x2000, none⟩) = true := by decide

/-- V-M13, V-M14. -/
theorem test_stRegs :
    tick 0xF355 ((regs [1, 2, 3, 4, 5]).setI 0x300) (fun t =>
        t.mem.readBytes 0x300 5 == [1, 2, 3, 4, 0] && t.i == 0x300) = true ∧
      tick 0xF055 ((regs [0xAB]).setI 0xFFF) (fun t => t.mem.read 0xFFF == 0xAB) = true := by decide

/-- V-M15, V-M16. -/
theorem test_stRegs_out_of_range :
    tick 0xF155 ((regs [0xAB]).setI 0xFFF) (fun t => t.mem.read 0xFFF == 0 &&
        t.fault == some ⟨.memoryOutOfRange, 0x200, some 0xF155, some 0x1000, none⟩) = true ∧
      tick 0xF055 ((regs [0xAB]).setI 0x1234) (fun t =>
        t.fault == some ⟨.memoryOutOfRange, 0x200, some 0xF055, some 0x1234, none⟩) = true := by decide

/-- V-M18. -/
theorem test_ldRegs :
    tick 0xF265 (holding ((regs [0, 0, 0, 0x99]).setI 0x300) 0x300 [0x11, 0x22, 0x33, 0x44]) (fun t =>
      t.getV 0 == 0x11 && t.getV 1 == 0x22 && t.getV 2 == 0x33 && t.getV 3 == 0x99) = true := by decide

/-- V-M20. -/
theorem test_ldRegs_out_of_range :
    tick 0xFF65 ((regs [1]).setI 0xFF1) (fun t => t.getV 0 == 1 &&
      t.fault == some ⟨.memoryOutOfRange, 0x200, some 0xFF65, some 0x1000, none⟩) = true := by decide

/-! ### Display (V-D1 to V-D12) -/

theorem test_cls :
    tick 0x00E0 ((flipping start 5 5).setVF 1) (fun t => !t.display.lit 5 5 && t.getV 15 == 1) = true := by decide

/-- V-D3, V-D4, V-D6, V-D7: wrapping columns and rows, a collision, and a 0 bit on a lit cell. -/
theorem test_drw :
    tick 0xD011 (holding ((regs [60, 31]).setI 0x300) 0x300 [0xFF]) (fun t => t.display.lit 60 31 &&
        t.display.lit 63 31 && t.display.lit 0 31 && t.display.lit 3 31 && !t.display.lit 4 31) = true ∧
      tick 0xD012 (holding ((regs [0, 31]).setI 0x300) 0x300 [0x80, 0x80]) (fun t => t.display.lit 0 31 &&
        t.display.lit 0 0 && t.getV 15 == 0) = true ∧
      tick 0xD011 (flipping (holding (start.setI 0x300) 0x300 [0xC0]) 1 0) (fun t => t.display.lit 0 0 &&
        !t.display.lit 1 0 && t.getV 15 == 1) = true ∧
      tick 0xD011 (flipping (holding (start.setI 0x300) 0x300 [0x40]) 0 0) (fun t => t.display.lit 0 0 &&
        t.display.lit 1 0 && t.getV 15 == 0) = true := by decide

/-- V-D8, V-D9, V-D11: no rows, a row out of range, and VF as a coordinate. -/
theorem test_drw_edges :
    tick 0xD010 ((start.setI 0xFFFF).setVF 1) (fun t => t.getV 15 == 0 && t.fault == none) = true ∧
      tick 0xD012 (start.setI 0xFFF) (fun t => t.pc == 0x200 &&
        t.fault == some ⟨.memoryOutOfRange, 0x200, some 0xD012, some 0x1000, none⟩) = true ∧
      tick 0xD0F1 (holding (((regs [2]).setI 0x300).setVF 1) 0x300 [0x80]) (fun t => t.display.lit 2 1 &&
        t.getV 15 == 0) = true := by decide

/-! ### Keypad and timers (V-K1 to V-T4) -/

/-- V-K1, V-K2. -/
theorem test_skp :
    tick 0xE59E (pressing ((start.setV 5 7).setPc 0x240) [7]) (fun t => t.pc == 0x244) = true ∧
      tick 0xE59E ((start.setV 5 7).setPc 0x240) (fun t => t.pc == 0x242) = true := by decide

/-- V-K5. -/
theorem test_skp_out_of_range :
    tick 0xE59E ((start.setV 5 16).setPc 0x240) (fun t => t.pc == 0x240 &&
      t.fault == some ⟨.keyIndexOutOfRange, 0x240, some 0xE59E, none, some 16⟩) = true := by decide

/-- V-K3, V-K4. -/
theorem test_sknp :
    tick 0xE5A1 ((start.setV 5 7).setPc 0x240) (fun t => t.pc == 0x244) = true ∧
      tick 0xE5A1 (pressing ((start.setV 5 7).setPc 0x240) [7]) (fun t => t.pc == 0x242) = true := by decide

/-- V-K6. -/
theorem test_sknp_out_of_range :
    tick 0xE5A1 ((start.setV 5 0xFF).setPc 0x240) (fun t => t.pc == 0x240 &&
      t.fault == some ⟨.keyIndexOutOfRange, 0x240, some 0xE5A1, none, some 255⟩) = true := by decide

/-- V-K7. -/
theorem test_ldK_waits :
    tick 0xF30A (start.setV 3 9) (fun t => t.pc == 0x200 && t.getV 3 == 9 && t.fault == none) = true := by decide

/-- V-K8, V-K9. -/
theorem test_ldK :
    tick 0xF30A (pressing start [9, 7]) (fun t => t.getV 3 == 7 && t.pc == 0x202) = true ∧
      tick 0xFF0A (pressing start [15]) (fun t => t.getV 15 == 15 && t.pc == 0x202) = true := by decide

theorem test_ldVxDt : tick 0xF107 (start.setDt 0x3C) (fun t => t.getV 1 == 0x3C && t.dt == 0x3C) = true := by decide

theorem test_ldDt : tick 0xF215 (regs [0, 0, 0x3C]) (fun t => t.dt == 0x3C && t.st == 0) = true := by decide

theorem test_ldSt : tick 0xF218 (regs [0, 0, 0x01]) (fun t => t.st == 0x01 && t.dt == 0) = true := by decide

/-! ### Host commands (V-H1 to V-H17) -/

/-- V-H1, V-H3, V-H4, V-H5. -/
theorem test_tickTimers :
    does .tickTimers start (fun t r => t.dt == 0 && t.st == 0 && r == .beep false) = true ∧
      does .tickTimers (start.setSt 1) (fun t r => t.dt == 0 && t.st == 0 && r == .beep true) = true ∧
      does .tickTimers ((start.setDt 5).setSt 2) (fun t r => t.dt == 4 && t.st == 1 && r == .beep false) = true ∧
      does .tickTimers ((start.setDt 255).setSt 255) (fun t r => t.dt == 254 && t.st == 254 && r == .beep false) =
        true := by decide

/-- V-H9, V-H10. -/
theorem test_keypress :
    does (.keypress 16 true) start (fun t r => t.keys == start.keys && r == .keyArgOutOfRange) = true ∧
      does (.keypress 15 true) start (fun t r => t.key 15 && !t.key 14 && r == .ok) = true := by decide

/-- V-H11: 3585 bytes are refused. -/
theorem test_load_too_large (s : State) :
    command Config.defaultFont (.load (List.replicate 3585 0x01)) s = .next (s, .imageTooLarge) := by
  rw [command, State.load, if_neg (by rw [List.length_replicate]; decide)]

/-- V-H13, and two bytes at 0x200. -/
theorem test_load :
    does (.load []) start (fun t r => t.mem == start.mem && r == .ok) = true ∧
      does (.load [0x60, 0x05]) start (fun t r => t.mem.readBytes 0x200 3 == [0x60, 0x05, 0] && r == .ok) = true := by
  decide

/-- V-H15: a tick under a latched fault returns the same record. -/
theorem test_tick_latched :
    does .tick { start with fault := some ⟨.stackUnderflow, 0x200, some 0x00EE, none, none⟩ } (fun t r =>
      t.pc == 0x200 && r == .fault ⟨.stackUnderflow, 0x200, some 0x00EE, none, none⟩) = true := by decide

/-- V-H16: reset clears the latch. -/
theorem test_resetCommand :
    does .reset { start with fault := some ⟨.stackUnderflow, 0x204, some 0x00EE, none, none⟩, pc := 0x204 }
      (fun t r => t.pc == 0x200 && t.fault == none && r == .done) = true := by decide

/-- V-H17: cell (c, r) is entry r * 64 + c. -/
theorem test_getDisplay :
    does .getDisplay (flipping start 10 3) (fun _ r =>
      match r with
      | .cells d => d[202]? == some true && d[203]? == some false && d.length == 2048
      | _ => false) = true := by decide +kernel

/-! ### Witnesses: what meets the hypotheses of each statement, each clause at the ends of its range -/

/-- `start` with the word `w` at pc = 0x200. -/
def at200 (w : Nat) (s : State) : State := s.withFetchWord 16 w

theorem test_witness_Decodes : ∀ row ∈ opcodeTable, row.pattern &&& row.mask = row.pattern := by decide

theorem test_witness_DecodeOfEncodeIsIdentity : Instr.WellFormed (.drw 15 15 15) ∧ Instr.WellFormed .nop := by decide

theorem test_witness_EncodeOfDecodeIsIdentity : decode 0xDFFF = .ok (.drw 15 15 15) := rfl

theorem test_witness_DecodeFollowsOpcodeMap :
    (Instr.ldRegs 0).row ∈ opcodeTable ∧ ∀ row ∈ opcodeTable, (0xFF66 : Word) &&& row.mask ≠ row.pattern := by decide

theorem test_witness_InvalidWordsPerMajor :
    (fieldO 0x0FFF = 0x0 ∧ (0x0FFF : Word) ≠ 0x0000 ∧ (0x0FFF : Word) ≠ 0x00E0 ∧ (0x0FFF : Word) ≠ 0x00EE) ∧
      (fieldO 0x5121 = 0x5 ∧ fieldN 0x5121 ≠ 0x0) ∧ (fieldO 0x9121 = 0x9 ∧ fieldN 0x9121 ≠ 0x0) ∧
      (fieldO 0x800F = 0x8 ∧ fieldN 0x800F ∈ [0x8, 0x9, 0xA, 0xB, 0xC, 0xD, 0xF]) ∧
      (fieldO 0xE0A0 = 0xE ∧ fieldNN 0xE0A0 ≠ 0x9E ∧ fieldNN 0xE0A0 ≠ 0xA1) ∧
      fieldO 0xFF66 = 0xF ∧ fieldNN 0xFF66 ∉ [0x07, 0x0A, 0x15, 0x18, 0x1E, 0x29, 0x33, 0x55, 0x65] := by decide

/-- A jump in the last two bytes of memory. -/
def lastWord : State := (holding start 0xFFE [0x12, 0x34]).setPc 0xFFE

theorem test_witness_StepRunsTheDecodedInstruction :
    lastWord.fault = none ∧ lastWord.pc.toNat + 1 < 4096 ∧ decode lastWord.fetchWord = .ok (.jp 0x234) :=
  ⟨rfl, by decide, rfl⟩

theorem test_witness_LatchedFaultStopsTheCore :
    let s : State := { start with fault := some ⟨.pcOutOfRange, 0xFFF, none, none, none⟩ }
    s.fault = some ⟨.pcOutOfRange, 0xFFF, none, none, none⟩ ∧ Command.tickTimers ≠ .reset ∧
      ∃ t reply, command Config.defaultFont .tickTimers s = .next (t, reply) :=
  ⟨rfl, by decide, _, _, rfl⟩

theorem test_witness_FetchReadsWordOrFaults :
    (lastWord.fault = none ∧ lastWord.pc.toNat + 1 < 4096 ∧ decode lastWord.fetchWord = .ok (.jp 0x234)) ∧
      (start.setPc 0xFFF).fault = none ∧ 4096 ≤ (start.setPc 0xFFF).pc.toNat + 1 :=
  ⟨⟨rfl, by decide, rfl⟩, rfl, by decide⟩

theorem test_witness_InvalidWordLatchesDecodeFault :
    (at200 0x5121 start).fault = none ∧ (at200 0x5121 start).pc.toNat + 1 < 4096 ∧
      ∀ row ∈ opcodeTable, (at200 0x5121 start).fetchWord &&& row.mask ≠ row.pattern := by decide

/-- A start of a faulting tick for each code, the tick's first check included. -/
theorem test_witness_FaultingTickChangesOnlyTheLatch :
    (∃ t, step (start.setPc 0xFFF) = .next t ∧ t.fault = some ⟨.pcOutOfRange, 0xFFF, none, none, none⟩) ∧
      (∃ t, step (at200 0x0001 start) = .next t ∧
        t.fault = some ⟨.decodeFault, 0x200, some 0x0001, none, none⟩) ∧
      ∃ t, step (at200 0x00EE start) = .next t ∧
        t.fault = some ⟨.stackUnderflow, 0x200, some 0x00EE, none, none⟩ :=
  ⟨next_of_ends (by decide), next_of_ends (by decide), next_of_ends (by decide)⟩

/-- The six codes; the ranges of I start at the lowest address that faults. -/
theorem test_witness_FaultRecordFields :
    (∃ t, step (start.setPc 0xFFF) = .next t ∧ t.fault = some ⟨.pcOutOfRange, 0xFFF, none, none, none⟩) ∧
      (∃ t, step (at200 0x0001 start) = .next t ∧
        t.fault = some ⟨.decodeFault, 0x200, some 0x0001, none, none⟩) ∧
      (∃ t, step (at200 0x2300 { start with sp := 16 }) = .next t ∧
        t.fault = some ⟨.stackOverflow, 0x200, some 0x2300, none, none⟩) ∧
      (∃ t, step (at200 0x00EE start) = .next t ∧
        t.fault = some ⟨.stackUnderflow, 0x200, some 0x00EE, none, none⟩) ∧
      (∃ t, step (at200 0xF033 (start.setI 0xFFE)) = .next t ∧
        t.fault = some ⟨.memoryOutOfRange, 0x200, some 0xF033, some 0x1000, none⟩) ∧
      ∃ t, step (at200 0xE09E (regs [16])) = .next t ∧
        t.fault = some ⟨.keyIndexOutOfRange, 0x200, some 0xE09E, none, some 16⟩ :=
  ⟨next_of_ends (by decide), next_of_ends (by decide), next_of_ends (by decide), next_of_ends (by decide),
    next_of_ends (by decide), next_of_ends (by decide)⟩

/-- The other ways to codes 5 and 6. -/
theorem test_witness_FaultCodesOnlyWhereTheTableSays :
    (∃ t, step (at200 0xD011 (start.setI 0x1000)) = .next t ∧
        t.fault = some ⟨.memoryOutOfRange, 0x200, some 0xD011, some 0x1000, none⟩) ∧
      (∃ t, step (at200 0xF155 (start.setI 0xFFF)) = .next t ∧
        t.fault = some ⟨.memoryOutOfRange, 0x200, some 0xF155, some 0x1000, none⟩) ∧
      (∃ t, step (at200 0xF165 (start.setI 0xFFF)) = .next t ∧
        t.fault = some ⟨.memoryOutOfRange, 0x200, some 0xF165, some 0x1000, none⟩) ∧
      ∃ t, step (at200 0xE0A1 (regs [16])) = .next t ∧
        t.fault = some ⟨.keyIndexOutOfRange, 0x200, some 0xE0A1, none, some 16⟩ :=
  ⟨next_of_ends (by decide), next_of_ends (by decide), next_of_ends (by decide), next_of_ends (by decide)⟩

theorem test_witness_TwentySevenInstructionsNeverFault :
    (Instr.rnd 15 0xFF).row.mnemonic ∉
      ["CALL", "RET", "DRW", "LD_B", "ST_REGS", "LD_REGS", "SKP", "SKNP"] := by decide

theorem test_witness_StepAnswersNextWhenSpIsLegal :
    start.sp.toNat ≤ 16 ∧ ({ start with sp := 16 } : State).sp.toNat ≤ 16 := by decide

/-- A state at the ends of the invariant: SP = 16, a byte at 0xFFF, about to push. -/
def fullStack : State := at200 0x2300 (holding { start with sp := 16 } 0xFFF [1])

theorem test_witness_StepKeepsInvariant :
    fullStack.Inv ∧ ∃ t, step fullStack = .next t ∧
      t.fault = some ⟨.stackOverflow, 0x200, some 0x2300, none, none⟩ :=
  ⟨⟨by decide, by decide, fun _ h => by cases h⟩, next_of_ends (by decide)⟩

theorem test_witness_EveryCommandKeepsInvariant :
    fullStack.Inv ∧ ∃ t reply, command Config.defaultFont .tick fullStack = .next (t, reply) :=
  ⟨⟨by decide, by decide, fun _ h => by cases h⟩, _, _, rfl⟩

/-- pc at the bound, and a return to the highest address a call pushes. -/
theorem test_witness_StepKeepsPcBound :
    (start.setPc 0x10FE).PcBound ∧ (∃ t, step (start.setPc 0x10FE) = .next t ∧ t.pc = 0x10FE) ∧
      (at200 0x00EE { start with sp := 1, stack := start.stack.set 0 0x1000 }).PcBound ∧
      ∃ t, step (at200 0x00EE { start with sp := 1, stack := start.stack.set 0 0x1000 }) = .next t ∧
        t.pc = 0x1000 :=
  ⟨⟨by decide, by decide⟩, next_of_ends (by decide), ⟨by decide, by decide⟩, next_of_ends (by decide)⟩

theorem test_witness_ResetValues : 0x050 ≤ 0x050 ∧ 0x050 < 4096 ∧ 0x050 ≤ 4095 ∧ 4095 < 4096 := by decide

theorem test_witness_RetPopsPcOrUnderflows :
    ({ start with sp := 1 } : State).sp.toNat = (0 : Fin 16).val + 1 ∧
      ({ start with sp := 16 } : State).sp.toNat = (15 : Fin 16).val + 1 ∧ start.sp = 0 := by decide

theorem test_witness_CallPushesPcOrOverflows :
    start.sp.toNat = (0 : Fin 16).val ∧ ({ start with sp := 15 } : State).sp.toNat = (15 : Fin 16).val ∧
      ({ start with sp := 16 } : State).sp = 16 := by decide

theorem test_witness_CallAndRetStopOnUnreachableSp :
    16 < ({ start with sp := 17 } : State).sp.toNat ∧ 16 < ({ start with sp := 31 } : State).sp.toNat := by decide

/-- A call from SP = 15, and a state in which its subroutine has changed a register. -/
theorem test_witness_CallThenRetResumesAfterTheCall :
    ({ start with sp := 15 } : State).sp.toNat < 16 ∧
      ∃ t, exec (.call 0x300) { start with sp := 15 } = .next t ∧ (t.setV 0 7).sp = t.sp ∧
        ∀ k, (t.setV 0 7).slot k = t.slot k :=
  ⟨by decide, _, rfl, rfl, fun _ => rfl⟩

/-- Both clauses of the ALU statements, and of the statements that split on VF: x = 14 and x = 15. -/
theorem test_witness_AddRegistersWithCarry : (14 : RegIx) ≠ 15 ∧ (0 : RegIx) ≠ 14 ∧ (0 : RegIx) ≠ 15 := by decide

theorem test_witness_SubtractWithNotBorrow : (14 : RegIx) ≠ 15 ∧ (0 : RegIx) ≠ 14 ∧ (0 : RegIx) ≠ 15 := by decide

theorem test_witness_ShiftsByOne : (14 : RegIx) ≠ 15 ∧ (15 : RegIx) = 15 ∧ (0 : RegIx) ≠ 14 := by decide

theorem test_witness_ImmediateLoadAndAdd : (0 : RegIx) ≠ 15 := by decide

theorem test_witness_CopyAndLogic : (0 : RegIx) ≠ 15 := by decide

theorem test_witness_RandomByteIsMasked : (0x0F : Byte).getLsbD 7 = false ∧ (0 : RegIx) ≠ 15 := by decide

theorem test_witness_DecimalDigitsAreStored :
    ((start.setI 0xFFD).mem.wf = true ∧ (start.setI 0xFFD).i.toNat + 2 < 4096) ∧
      4096 ≤ (start.setI 0xFFE).i.toNat + 2 := by decide

theorem test_witness_RegistersAreStored :
    ((start.setI 0xFFF).mem.wf = true ∧ (start.setI 0xFFF).i.toNat + (0 : RegIx).val < 4096) ∧
      (start.setI 0xFF0).i.toNat + (15 : RegIx).val < 4096 ∧
      4096 ≤ (start.setI 0xFFF).i.toNat + (1 : RegIx).val := by decide

theorem test_witness_RegistersAreLoaded :
    (start.setI 0xFFF).i.toNat + (0 : RegIx).val < 4096 ∧ (start.setI 0xFF0).i.toNat + (15 : RegIx).val < 4096 ∧
      4096 ≤ (start.setI 0xFF1).i.toNat + (15 : RegIx).val ∧ (1 : RegIx) < 15 := by decide

theorem test_witness_StoreThenLoadRestoresRegisters :
    (start.setI 0xFF0).mem.wf = true ∧ (start.setI 0xFF0).i.toNat + (15 : RegIx).val < 4096 ∧
      ∃ t, exec (.stRegs 15) (start.setI 0xFF0) = .next t ∧ (t.setV 3 9).i = t.i ∧ (t.setV 3 9).mem = t.mem :=
  ⟨by decide, by decide, _, rfl, rfl, rfl⟩

/-- No rows with I past memory, 15 rows that end at 0xFFF, a covered and a bare cell, and the lowest bad address. -/
theorem test_witness_DrawXorsTheSprite :
    (0 ≤ 15 ∧ (0 = 0 ∨ (start.setI 0xFFFF).i.toNat + 0 - 1 < 4096)) ∧
      (15 ≤ 15 ∧ (15 = 0 ∨ (start.setI 0xFF1).i.toNat + 15 - 1 < 4096)) ∧
      SpriteCovers [(0xFFF, 0x80)] 0xFFF 63 31 1 63 31 ∧ ¬ SpriteCovers [(0xFFF, 0x80)] 0xFFF 63 31 1 0 0 ∧
      (0 < 1 ∧ 4096 ≤ (start.setI 0x1000).i.toNat + 1 - 1) := by
  refine ⟨by decide, by decide, ⟨0, 0, by decide⟩, ?_, by decide⟩
  rintro ⟨k, b, hk, -, -, -, hr⟩
  obtain rfl : k = 0 := by omega
  exact absurd hr (by decide)

theorem test_witness_DrawingTwiceRestoresTheScreen :
    (0 : RegIx) ≠ 15 ∧ (14 : RegIx) ≠ 15 ∧ 15 ≤ 15 ∧ (15 = 0 ∨ (start.setI 0xFF1).i.toNat + 15 - 1 < 4096) := by
  decide

theorem test_witness_KeySkips :
    ((regs [0]).getV 0).toNat = (0 : Fin 16).val ∧ ((regs [15]).getV 0).toNat = (15 : Fin 16).val ∧
      15 < ((regs [16]).getV 0).toNat ∧ 15 < ((regs [0xFF]).getV 0).toNat := by decide

theorem test_witness_KeyWaitStoresLowestKeyOrRepeats :
    ((pressing start [9, 7]).key 7 = true ∧ ∀ j, j < 7 → (pressing start [9, 7]).key j = false) ∧
      ((pressing start [15]).key 15 = true ∧ ∀ j, j < 15 → (pressing start [15]).key j = false) ∧
      (∀ k, (at200 0xF30A start).key k = false) ∧ (at200 0xF30A start).fault = none ∧
      (at200 0xF30A start).pc.toNat + 1 < 4096 ∧ decode (at200 0xF30A start).fetchWord = .ok (.ldK 3) :=
  ⟨by decide, by decide, by decide, rfl, by decide, rfl⟩

theorem test_witness_TimerTransfers : (0 : RegIx) ≠ 15 := by decide

theorem test_witness_LoadCopiesTheImageOrRefuses :
    start.mem.wf = true ∧ (List.replicate 3584 (7 : Byte)).length ≤ 3584 ∧ 0 < (List.replicate 3584 (7 : Byte)).length ∧
      3584 < (List.replicate 3585 (7 : Byte)).length :=
  ⟨rfl, by rw [List.length_replicate], by rw [List.length_replicate]; decide, by rw [List.length_replicate]; decide⟩

theorem test_witness_KeypressSetsOneFlagOrRefuses : (0 : Fin 16) ≠ 15 ∧ 15 < 16 := by decide

/-- Load, store and digits; then a state that jumps to the stored bytes, with a word that spells LD V1, 0x22. -/
theorem test_witness_TickRunsWhatWasLoaded :
    (start.mem.wf = true ∧ start.fault = none ∧ start.pc = 0x200 ∧
        decode (wordOfBytes 0x60 0x05) = .ok (.ldImm 0 5) ∧
        ∃ t reply, command Config.defaultFont (.load [0x60, 0x05]) start = .next (t, reply)) ∧
      ((regs [1]).mem.wf = true ∧ ((regs [1]).setI 0xFFD).i.toNat + 2 < 4096 ∧
        ∃ t, exec (.ldB 0) ((regs [1]).setI 0xFFD) = .next t ∧ (t.setPc 0xFFE).mem = t.mem) ∧
      let s := (regs [0x61, 0x22]).setI 0xFFE
      s.mem.wf = true ∧ s.i.toNat + (1 : RegIx).val < 4096 ∧ (1 : RegIx).val = (0 : RegIx).val + 1 ∧
        decode (wordOfBytes (s.getV 0) (s.getV 1)) = .ok (.ldImm 1 0x22) ∧
        ∃ t, exec (.stRegs 1) s = .next t ∧ (t.setPc 0xFFE).mem = t.mem ∧ (t.setPc 0xFFE).fault = none ∧
          (t.setPc 0xFFE).pc.toNat = s.i.toNat + (0 : RegIx).val :=
  ⟨⟨rfl, rfl, rfl, rfl, _, _, rfl⟩, ⟨rfl, by decide, _, rfl, rfl⟩, rfl, by decide, rfl, rfl, _, rfl, rfl, rfl, by decide⟩

/-- Each element changes somewhere; pc and FAULT by an instruction, by a fault of one, and by a tick. -/
theorem test_witness_ElementsHaveOnlyTheirWriters :
    ((∃ t, exec (.ldDt 0) (regs [1]) = .next t ∧ t.dt ≠ (regs [1]).dt) ∧
        (∃ t, exec (.ldSt 0) (regs [1]) = .next t ∧ t.st ≠ (regs [1]).st) ∧
        (∃ t, exec (.ldI 5) start = .next t ∧ t.i ≠ start.i) ∧
        ∃ t, exec (.call 5) start = .next t ∧ t.stack ≠ start.stack ∧ t.sp ≠ start.sp) ∧
      ((∃ t, exec .cls (flipping start 0 0) = .next t ∧ t.display ≠ (flipping start 0 0).display) ∧
        (∃ t, exec (.stRegs 0) (regs [1]) = .next t ∧ t.mem ≠ (regs [1]).mem) ∧
        ∃ t, exec (.rnd 0 0) start = .next t ∧ t.draws ≠ start.draws) ∧
      ((∃ t, exec (.ldImm 15 1) start = .next t ∧ t.getV 15 ≠ start.getV 15) ∧
        (∃ t, exec (.sub 0 0) start = .next t ∧ t.getV 15 ≠ start.getV 15) ∧
        ∃ t, exec (.ldRegs 15) (holding start 0 [0, 7]) = .next t ∧ t.getV 1 ≠ start.getV 1) ∧
      ((∃ t, exec (.seImm 0 0) start = .next t ∧ t.pc ≠ start.pc) ∧
        ∃ t, exec .ret start = .next t ∧ t.pc ≠ start.pc ∧ t.fault ≠ start.fault) ∧
      ∃ t, step (start.setPc 0xFFF) = .next t ∧ t.fault ≠ (start.setPc 0xFFF).fault :=
  ⟨⟨next_of_ends (by decide), next_of_ends (by decide), next_of_ends (by decide), next_of_ends (by decide)⟩,
    ⟨next_of_ends (by decide), next_of_ends (by decide), next_of_ends (by decide)⟩,
    ⟨next_of_ends (by decide), next_of_ends (by decide), next_of_ends (by decide)⟩,
    ⟨next_of_ends (by decide), next_of_ends (by decide)⟩, next_of_ends (by decide)⟩

theorem test_witness_TicksMoveNoTimerAndNoKey :
    (∃ t, step (at200 0xF015 (regs [1])) = .next t ∧ t.dt ≠ (regs [1]).dt) ∧
      ∃ t, step (at200 0xF018 (regs [1])) = .next t ∧ t.st ≠ (regs [1]).st :=
  ⟨next_of_ends (by decide), next_of_ends (by decide)⟩

theorem test_witness_FrameOfJumpsAndSkips :
    (Instr.jpV0 0xFFF).row.mnemonic ∈ ["NOP", "JP", "JP_V0", "SE_IMM", "SNE_IMM", "SE_REG", "SNE_REG"] ∧
      ∃ t, exec (.jpV0 0xFFF) start = .next t ∧ t.pc = 0xFFF :=
  ⟨by decide, next_of_ends (by decide)⟩

theorem test_witness_FrameOfCallAndRet :
    ((Instr.call 0x300).row.mnemonic ∈ ["CALL", "RET"] ∧ start.sp.toNat ≠ (1 : Fin 16).val ∧
        ∃ t, exec (.call 0x300) start = .next t ∧ t.sp = 1) ∧
      Instr.ret.row.mnemonic ∈ ["CALL", "RET"] ∧ Instr.ret.row.mnemonic = "RET" ∧
        ∃ t, exec .ret { start with sp := 16 } = .next t ∧ t.sp = 15 :=
  ⟨⟨by decide, by decide, next_of_ends (by decide)⟩, by decide, rfl, next_of_ends (by decide)⟩

theorem test_witness_FrameOfFlagFreeRegisterInstructions :
    (Instr.ldImm 0 1).row.mnemonic ∈
        ["LD_IMM", "ADD_IMM", "LD_REG", "OR", "AND", "XOR", "RND", "LD_VX_DT", "LD_K"] ∧
      (Instr.ldImm 0 1).row.mnemonic ≠ "LD_K" ∧ (Instr.ldImm 0 1).row.mnemonic ≠ "RND" ∧
      ∃ t, exec (.ldImm 0 1) start = .next t ∧ t.getV 0 = 1 :=
  ⟨by decide, by decide, by decide, next_of_ends (by decide)⟩

theorem test_witness_FrameOfFlagWritingInstructions :
    (Instr.shl 0 1).row.mnemonic ∈ ["ADD_REG", "SUB", "SHR", "SUBN", "SHL"] ∧
      ∃ t, exec (.shl 0 1) (regs [0x81]) = .next t ∧ t.getV 15 = 1 :=
  ⟨by decide, next_of_ends (by decide)⟩

theorem test_witness_FrameOfIndexAndTimerWrites :
    ((Instr.ldDt 0).row.mnemonic ∈ ["LD_I", "ADD_I", "LD_F", "LD_DT", "LD_ST"] ∧
        (Instr.ldDt 0).row.mnemonic ∈ ["LD_DT", "LD_ST"] ∧ (Instr.ldDt 0).row.mnemonic ≠ "LD_ST" ∧
        ∃ t, exec (.ldDt 0) (regs [1]) = .next t ∧ t.dt = 1) ∧
      (Instr.addI 0).row.mnemonic ∈ ["LD_I", "ADD_I", "LD_F", "LD_DT", "LD_ST"] ∧
        (Instr.addI 0).row.mnemonic ≠ "LD_DT" ∧ ∃ t, exec (.addI 0) (regs [1]) = .next t ∧ t.i = 1 :=
  ⟨⟨by decide, by decide, by decide, next_of_ends (by decide)⟩, by decide, by decide, next_of_ends (by decide)⟩

/-- A store that ends at 0xFFF, and one that is refused at 0x1000, of each instruction. -/
theorem test_witness_FrameOfMemoryStores :
    start.mem.wf = true ∧
      (∃ t, exec (.ldB 0) ((regs [100]).setI 0xFFD) = .next t ∧ t.mem.read 0xFFD = 1) ∧
      (∃ t, exec (.stRegs 15) ((regs [100]).setI 0xFF0) = .next t ∧ t.mem.read 0xFF0 = 100) ∧
      (4096 ≤ (start.setI 0xFFE).ea 2 ∧ ∃ t, exec (.ldB 0) (start.setI 0xFFE) = .next t ∧ t.fault ≠ none) ∧
      4096 ≤ (start.setI 0xFFF).ea 1 ∧ ∃ t, exec (.stRegs 1) (start.setI 0xFFF) = .next t ∧ t.fault ≠ none :=
  ⟨rfl, next_of_ends (by decide), next_of_ends (by decide), ⟨by decide, next_of_ends (by decide)⟩, by decide,
    next_of_ends (by decide)⟩

theorem test_witness_FrameOfLoadsDisplayAndKeySkips :
    (Instr.ldRegs 14).row.mnemonic ∈ ["LD_REGS", "CLS", "DRW", "SKP", "SKNP"] ∧
      (Instr.ldRegs 14).row.mnemonic = "LD_REGS" ∧ (Instr.drw 0 0 1).row.mnemonic = "DRW" ∧
      (Instr.skp 0).row.mnemonic ∈ ["CLS", "SKP", "SKNP"] ∧
      (Instr.skp 0).row.mnemonic ∈ ["LD_REGS", "SKP", "SKNP"] ∧ ¬ ((15 : RegIx) ≤ 14) ∧
      (∃ t, exec (.ldRegs 14) (start.setI 0xFF1) = .next t ∧ t.fault = none) ∧
      (∃ t, exec (.drw 0 0 1) (start.setI 0x1000) = .next t ∧ t.fault ≠ none) ∧
      ∃ t, exec (.skp 0) (regs [15]) = .next t ∧ t.fault = none :=
  ⟨by decide, rfl, rfl, by decide, by decide, by decide, next_of_ends (by decide), next_of_ends (by decide),
    next_of_ends (by decide)⟩

end Sys2Proof.Tests
end

/-! ## Proofs: the state after reset (10_state.md R37) -/

namespace Sys2Proof.Machine

/-! ### The command `reset` -/

/-- `reset` never stops, and only the model's draw counter outlives it (log entry 9). -/
@[simp] theorem command_reset (font : Font) (s : State) :
    command font .reset s = .next ({ State.resetWith font with draws := s.draws }, .done) := rfl

/-! ### The arrays after reset, read through their accessors -/

section
variable (font : Font)

@[simp] theorem State.resetWith_getV (x : RegIx) : (State.resetWith font).getV x = 0 :=
  Vector.getElem_replicate x.isLt

@[simp] theorem State.resetWith_slot (k : Fin 16) : (State.resetWith font).slot k = 0 :=
  Vector.getElem_replicate k.isLt

@[simp] theorem State.resetWith_key (k : Fin 16) : (State.resetWith font).key k = false :=
  Vector.getElem_replicate k.isLt

@[simp] theorem State.resetWith_lit (c : Col) (r : Row) : (State.resetWith font).display.lit c r = false :=
  Display.lit_clear c r

/-! ### Memory after reset: the font table, then zeros -/

/-- Below the end of the font table memory reads as FONT. -/
theorem State.resetWith_read_font (k : Fin 80) : (State.resetWith font).mem.read k.val = font[k.val] := by
  have hin : Config.fontBase ≤ k.val ∧ k.val - Config.fontBase < font.toList.length :=
    ⟨Nat.zero_le _, by simp⟩
  calc (State.resetWith font).mem.read k.val
      = font.toList[k.val - Config.fontBase]'hin.2 := (Memory.read_ofBytes _ _ _).trans (dif_pos hin)
    _ = font[k.val] := Vector.getElem_toList _

/-- From the end of the font table on memory reads as 0. -/
theorem State.resetWith_read_beyond_font {a : Nat} (ha : 0x050 ≤ a) : (State.resetWith font).mem.read a = 0 := by
  have hout : ¬ (Config.fontBase ≤ a ∧ a - Config.fontBase < font.toList.length) := by
    rw [Vector.length_toList, Config.fontBase]
    omega
  exact (Memory.read_ofBytes _ _ _).trans (dif_neg hout)

end

/-- Settles O21: the reset command by its equation, the scalars by definition, the arrays by the lemmas on what
their accessors read after reset, and memory by what a memory made of the font's bytes reads as. -/
theorem resetValues : Obligations.ResetValues := by
  intro font
  have hcommand (s : State) : ∃ t, command font .reset s = .next (t, .done) ∧
      t = { State.resetWith font with draws := t.draws } := ⟨_, command_reset font s, rfl⟩
  exact ⟨hcommand, State.resetWith_getV font, rfl, rfl, State.resetWith_slot font, rfl, rfl, rfl,
    State.resetWith_key font, State.resetWith_lit font, State.resetWith_read_font font,
    fun _ hlo _ => State.resetWith_read_beyond_font font hlo, rfl⟩

end Sys2Proof.Machine

/-! ## Proofs: decoding against the opcode map (30_encoding.md R81, R83, R90) -/

namespace Sys2Proof

/-- Settles O1: each field's value is its law of the fields as numbers. -/
theorem fieldsOfInstructionWord : Obligations.FieldsOfInstructionWord := fun w =>
  ⟨fieldO_toNat w, fieldX_val w, fieldY_val w, fieldN_toNat w, fieldNN_toNat w, fieldNNN_toNat w⟩

/-! ### A word from the fields the decoder tests and the fields it reads -/

section
variable {w : Word} {o : Nibble}

theorem packNNN_eq_of_fieldO (hO : (fieldO w).toNat = o.toNat) : packNNN o (fieldNNN w) = w := by
  rw [← BitVec.eq_of_toNat_eq hO, packNNN_fields]

theorem packXNN_eq_of_fieldO (hO : (fieldO w).toNat = o.toNat) : packXNN o (fieldX w) (fieldNN w) = w := by
  rw [← BitVec.eq_of_toNat_eq hO, packXNN_fields]

theorem packXNN_eq_of_fields {nn : Byte} (hO : (fieldO w).toNat = o.toNat)
    (hNN : (fieldNN w).toNat = nn.toNat) : packXNN o (fieldX w) nn = w := by
  rw [← BitVec.eq_of_toNat_eq hNN, packXNN_eq_of_fieldO hO]

theorem packXYN_eq_of_fields {n : Nibble} (hO : (fieldO w).toNat = o.toNat)
    (hN : (fieldN w).toNat = n.toNat) : packXYN o (fieldX w) (fieldY w) n = w := by
  rw [← BitVec.eq_of_toNat_eq hO, ← BitVec.eq_of_toNat_eq hN, packXYN_fields]

end

/-! ### What the decoder can answer, said once -/

/-- An answer to the word `w` that loses nothing of it: a well-formed instruction encoded as `w`, or `invalid` naming
`w` (R83, R90, R91). -/
def DecodeAnswers (w : Word) : Except DecodeError Instr → Prop
  | .ok i => i.WellFormed ∧ encode i = w
  | .error e => e = .invalid w

theorem decodeMajor0_answers (w : Word) : DecodeAnswers w (decodeMajor0 w) := by
  unfold decodeMajor0
  split_ifs with hNop hCls hRet
  · exact ⟨rfl, hNop.symm⟩
  · exact ⟨rfl, hCls.symm⟩
  · exact ⟨rfl, hRet.symm⟩
  · rfl

theorem decodeRegPair_answers {w : Word} {i : Instr} (h : fieldN w = 0 → i.WellFormed ∧ encode i = w) :
    DecodeAnswers w (decodeRegPair w i) := by
  unfold decodeRegPair
  split_ifs with hN
  · exact h hN
  · rfl

theorem decodeMajor8_answers {w : Word} (hO : (fieldO w).toNat = 0x8) : DecodeAnswers w (decodeMajor8 w) := by
  unfold decodeMajor8
  split
  case h_10 => rfl
  all_goals
    rename_i hN
    exact ⟨rfl, packXYN_eq_of_fields hO hN⟩

theorem decodeMajorE_answers {w : Word} (hO : (fieldO w).toNat = 0xE) : DecodeAnswers w (decodeMajorE w) := by
  unfold decodeMajorE
  split
  case h_3 => rfl
  all_goals
    rename_i hNN
    exact ⟨rfl, packXNN_eq_of_fields hO hNN⟩

theorem decodeMajorF_answers {w : Word} (hO : (fieldO w).toNat = 0xF) : DecodeAnswers w (decodeMajorF w) := by
  unfold decodeMajorF
  split
  case h_10 => rfl
  all_goals
    rename_i hNN
    exact ⟨rfl, packXNN_eq_of_fields hO hNN⟩

theorem drw_answers {w : Word} (hO : (fieldO w).toNat = 0xD) :
    DecodeAnswers w (.ok (.drw (fieldX w) (fieldY w) (fieldN w).toNat)) := by
  refine ⟨decide_eq_true (fieldN w).isLt, ?_⟩
  rw [encode, BitVec.ofNat_toNat, BitVec.setWidth_eq]
  exact packXYN_eq_of_fields hO rfl

/-- The case split is the decoder's own: arm `h_k` is the one of major opcode k - 1, and `h_17` the one of none. -/
theorem decode_answers (w : Word) : DecodeAnswers w (decode w) := by
  unfold decode
  split
  case h_1 => exact decodeMajor0_answers w
  case h_6 hO | h_10 hO =>
    exact decodeRegPair_answers fun hN => ⟨rfl, packXYN_eq_of_fields hO (congrArg BitVec.toNat hN)⟩
  case h_9 hO => exact decodeMajor8_answers hO
  case h_14 hO => exact drw_answers hO
  case h_15 hO => exact decodeMajorE_answers hO
  case h_16 hO => exact decodeMajorF_answers hO
  case h_2 hO | h_3 hO | h_11 hO | h_12 hO => exact ⟨rfl, packNNN_eq_of_fieldO hO⟩
  case h_4 hO | h_5 hO | h_7 hO | h_8 hO | h_13 hO => exact ⟨rfl, packXNN_eq_of_fieldO hO⟩
  case h_17 => rfl

theorem wellFormed_and_encode_of_decode {w : Word} {i : Instr} (h : decode w = .ok i) :
    i.WellFormed ∧ encode i = w :=
  (h ▸ decode_answers w : DecodeAnswers w (.ok i))

theorem decode_error_eq_invalid {w : Word} {e : DecodeError} (h : decode w = .error e) : e = .invalid w :=
  (h ▸ decode_answers w : DecodeAnswers w (.error e))

/-! ### The rows of the opcode map -/

open Laws in
/-- R83: the word of every instruction carries its row's fixed bits, from the law of each constructor. -/
theorem encode_and_mask : ∀ i : Instr, encode i &&& i.row.mask = i.row.pattern
  | .nop => RowBits.nop
  | .cls => RowBits.cls
  | .ret => RowBits.ret
  | .jp nnn => RowBits.jp nnn
  | .call nnn => RowBits.call nnn
  | .seImm x nn => RowBits.seImm x nn
  | .sneImm x nn => RowBits.sneImm x nn
  | .seReg x y => RowBits.seReg x y
  | .ldImm x nn => RowBits.ldImm x nn
  | .addImm x nn => RowBits.addImm x nn
  | .ldReg x y => RowBits.ldReg x y
  | .or x y => RowBits.or x y
  | .and x y => RowBits.and x y
  | .xor x y => RowBits.xor x y
  | .addReg x y => RowBits.addReg x y
  | .sub x y => RowBits.sub x y
  | .shr x y => RowBits.shr x y
  | .subn x y => RowBits.subn x y
  | .shl x y => RowBits.shl x y
  | .sneReg x y => RowBits.sneReg x y
  | .ldI nnn => RowBits.ldI nnn
  | .jpV0 nnn => RowBits.jpV0 nnn
  | .rnd x nn => RowBits.rnd x nn
  | .drw x y n => RowBits.drw x y n
  | .skp x => RowBits.skp x
  | .sknp x => RowBits.sknp x
  | .ldVxDt x => RowBits.ldVxDt x
  | .ldK x => RowBits.ldK x
  | .ldDt x => RowBits.ldDt x
  | .ldSt x => RowBits.ldSt x
  | .addI x => RowBits.addI x
  | .ldF x => RowBits.ldF x
  | .ldB x => RowBits.ldB x
  | .stRegs x => RowBits.stRegs x
  | .ldRegs x => RowBits.ldRegs x

theorem row_mem_opcodeTable (i : Instr) : i.row ∈ opcodeTable := by
  cases i <;> simp [opcodeTable, rowSamples, Instr.row]

/-- R83: a word that decodes to an instruction has the fixed bits of the instruction's row. -/
theorem and_mask_of_decode {w : Word} {i : Instr} (h : decode w = .ok i) : w &&& i.row.mask = i.row.pattern := by
  obtain ⟨-, hw⟩ := wellFormed_and_encode_of_decode h
  rw [← hw]
  exact encode_and_mask i

/-- R83: a word with the fixed bits of `i`'s row decodes to an instruction of that row. The row's mask says which
fields of the word are fixed, and those are the fields the decoder tests. -/
theorem decode_of_and_mask {w : Word} (i : Instr) (h : w &&& i.row.mask = i.row.pattern) :
    ∃ j, decode w = .ok j ∧ j.row = i.row := by
  cases i with
  | nop | cls | ret =>
    simp only [Instr.row] at h
    rw [eq_of_and_FFFF h]
    exact ⟨_, rfl, rfl⟩
  | jp | call | seImm | sneImm | ldImm | addImm | ldI | jpV0 | rnd | drw =>
    simp only [Instr.row] at h
    rw [decode, fieldO_of_and_F000 h]
    exact ⟨_, rfl, rfl⟩
  | seReg | sneReg =>
    simp only [Instr.row] at h
    obtain ⟨hO, hN⟩ := fields_of_and_F00F h
    rw [decode, hO, decodeRegPair, decodeRegPair, hN]
    exact ⟨_, rfl, rfl⟩
  | ldReg | or | and | xor | addReg | sub | shr | subn | shl =>
    simp only [Instr.row] at h
    obtain ⟨hO, hN⟩ := fields_of_and_F00F h
    rw [decode, hO, decodeMajor8, hN]
    exact ⟨_, rfl, rfl⟩
  | skp | sknp =>
    simp only [Instr.row] at h
    obtain ⟨hO, hNN⟩ := fields_of_and_F0FF h
    rw [decode, hO, decodeMajorE, hNN]
    exact ⟨_, rfl, rfl⟩
  | ldVxDt | ldK | ldDt | ldSt | addI | ldF | ldB | stRegs | ldRegs =>
    simp only [Instr.row] at h
    obtain ⟨hO, hNN⟩ := fields_of_and_F0FF h
    rw [decode, hO, decodeMajorF, hNN]
    exact ⟨_, rfl, rfl⟩

theorem and_mask_iff_decode {row : OpcodeRow} (hrow : row ∈ opcodeTable) (w : Word) :
    w &&& row.mask = row.pattern ↔ ∃ i, decode w = .ok i ∧ i.row = row := by
  obtain ⟨sample, -, rfl⟩ := List.mem_map.mp hrow
  constructor
  · exact decode_of_and_mask sample
  · rintro ⟨i, hi, hir⟩
    rw [← hir]
    exact and_mask_of_decode hi

/-- R90: a word that selects no row decodes to `invalid`. -/
theorem decode_of_no_row {w : Word} (h : ∀ row ∈ opcodeTable, w &&& row.mask ≠ row.pattern) :
    decode w = .error (.invalid w) := by
  cases hd : decode w with
  | ok i => exact absurd (and_mask_of_decode hd) (h i.row (row_mem_opcodeTable i))
  | error e => rw [decode_error_eq_invalid hd]

/-- Settles O4: a decoded instruction is encoded as its word, which carries the row's bits; and the bits a row fixes
are those the decoder tests. -/
theorem decodeFollowsOpcodeMap : Obligations.DecodeFollowsOpcodeMap :=
  ⟨rfl, fun w _ hrow => and_mask_iff_decode hrow w, fun _ => decode_of_no_row⟩

end Sys2Proof

/-! ## Proofs: the fault of an invalid word (30_encoding.md R90, 40_cycle.md R102, R104) -/

namespace Sys2Proof.Machine

/-- R102: the fetch of a word that decodes to no instruction answers the record of `DecodeFault`. -/
theorem State.fetchDecode_of_decode_error {s : State} {e : DecodeError} (hpc : s.pc.toNat + 1 < Config.memSize)
    (hd : decode s.fetchWord = .error e) :
    s.fetchDecode = .error ⟨.decodeFault, s.pc, some s.fetchWord, none, none⟩ := by
  rw [State.fetchDecode, State.fetchInRange, if_pos (decide_eq_true hpc), hd]

/-- R104: with no fault latched, a tick latches the fault of its fetch or decode. -/
theorem step_of_fetchDecode_error {s : State} {r : FaultRecord} (hf : s.fault = none)
    (hd : s.fetchDecode = .error r) : step s = .next (s.commitFault r) := by
  rw [step, hf, hd]

/-- Settles O10: a word of no row decodes to `invalid`, the fetch answers the record of `DecodeFault` for it, and the
tick latches that record. -/
theorem invalidWordLatchesDecodeFault : Obligations.InvalidWordLatchesDecodeFault := by
  intro s hf hpc hrows
  have hd : decode s.fetchWord = .error (.invalid s.fetchWord) := decode_of_no_row hrows
  exact ⟨hd, step_of_fetchDecode_error hf (State.fetchDecode_of_decode_error hpc hd), rfl⟩

end Sys2Proof.Machine

/-! ## Proofs: the cycle, its faults and the fault latch (40_cycle.md R100, R101, R104) -/

namespace Sys2Proof.Machine

/-! ### The reply of a tick -/

theorem State.tickReply_of_fault {s : State} {r : FaultRecord} (hf : s.fault = some r) : s.tickReply = .fault r := by
  rw [State.tickReply, hf]

theorem command_tick_of_step (font : Font) {s t : State} (h : step s = .next t) :
    command font .tick s = .next (t, t.tickReply) := by
  rw [command, h]

/-- R100, R104: a tick that ends with a record latched returns it, whenever it was latched. -/
theorem command_tick_of_step_fault (font : Font) {s t : State} {r : FaultRecord} (h : step s = .next t)
    (hr : t.fault = some r) : command font .tick s = .next (t, .fault r) := by
  rw [command_tick_of_step font h, State.tickReply_of_fault hr]

/-! ### A latched fault (R100) -/

theorem step_of_fault {s : State} {r : FaultRecord} (hf : s.fault = some r) : step s = .next s := by
  rw [step, hf]

@[simp] theorem State.load_fault (s : State) (bytes : List Byte) : (s.load bytes).1.fault = s.fault := by
  rw [State.load]
  split <;> rfl

@[simp] theorem State.tickTimers_fault (s : State) : s.tickTimers.1.fault = s.fault := rfl

@[simp] theorem State.getDisplay_fault (s : State) : s.getDisplay.1.fault = s.fault := rfl

@[simp] theorem State.keypress_fault (s : State) (index : Nat) (pressed : Bool) :
    (s.keypress index pressed).1.fault = s.fault := by
  rw [State.keypress]
  split <;> rfl

/-- The commands that are not `reset` and not `tick` never write the latch, whatever it holds. -/
theorem command_keeps_fault {font : Font} {c : Command} {s t : State} {reply : Reply} (hreset : c ≠ .reset)
    (htick : c ≠ .tick) (h : command font c s = .next (t, reply)) : t.fault = s.fault := by
  cases c with
  | reset => exact absurd rfl hreset
  | tick => exact absurd rfl htick
  | load bytes => rw [← s.load_fault bytes, Host.Outcome.next.inj h]
  | tickTimers => rw [← s.tickTimers_fault, Host.Outcome.next.inj h]
  | getDisplay => rw [← s.getDisplay_fault, Host.Outcome.next.inj h]
  | keypress index pressed => rw [← s.keypress_fault index pressed, Host.Outcome.next.inj h]

/-- R100: under a latched fault the tick does nothing either, so only `reset` can write the latch. -/
theorem command_keeps_latched_fault {font : Font} {c : Command} {s t : State} {reply : Reply} {r : FaultRecord}
    (hf : s.fault = some r) (hc : c ≠ .reset) (h : command font c s = .next (t, reply)) : t.fault = some r := by
  by_cases htick : c = .tick
  · rw [htick, command_tick_of_step font (step_of_fault hf)] at h
    cases h
    exact hf
  · rw [command_keeps_fault hc htick h, hf]

/-- Settles O8: a step under a latched fault is no step, its tick returns the record still latched, and the other
commands do not write the latch. -/
theorem latchedFaultStopsTheCore : Obligations.LatchedFaultStopsTheCore := fun font _ _ hf =>
  ⟨step_of_fault hf, command_tick_of_step_fault font (step_of_fault hf) hf,
    fun _ _ _ hc h => command_keeps_latched_fault hf hc h⟩

/-! ### The fetch (R101) -/

theorem State.fetchDecode_of_pc_outOfRange {s : State} (hpc : Config.memSize ≤ s.pc.toNat + 1) :
    s.fetchDecode = .error ⟨.pcOutOfRange, s.pc, none, none, none⟩ := by
  rw [State.fetchDecode, State.fetchInRange, decide_eq_false (Nat.not_lt.mpr hpc)]
  rfl

/-- R103: with no fault latched, a tick runs what the fetch answers from the state the fetch leaves. -/
theorem step_of_fetchDecode_ok {s : State} {i : Instr} (hf : s.fault = none) (hd : s.fetchDecode = .ok i) :
    step s = exec i s.advance := by
  rw [step, hf, hd]

/-- Settles O9: in range the word is the two bytes at pc and its instruction runs; out of range the fetch answers the
record of `PcOutOfRange`, which the tick latches. -/
theorem fetchReadsWordOrFaults : Obligations.FetchReadsWordOrFaults := by
  intro s hf
  refine ⟨fun hpc => ⟨s.fetchWord_toNat, fun i hd => ?_⟩, fun hpc => ?_⟩
  · exact step_of_fetchDecode_ok hf (State.fetchDecode_ok.mpr ⟨hpc, hd⟩)
  · exact step_of_fetchDecode_error hf (State.fetchDecode_of_pc_outOfRange hpc)

/-! ### A tick that faults (R104) -/

/-- A fault raised by an executing instruction undoes the fetch's advance of pc. -/
theorem State.faulted_advance (s : State) (code : FaultCode) (word : Word) (addr : Option Nat)
    (value : Option Byte) :
    s.advance.faulted code word addr value = s.commitFault ⟨code, s.pc, some word, addr, value⟩ := by
  have hpc : s.advance.pc - 2 = s.pc := BitVec.add_sub_cancel s.pc 2
  rw [State.faulted, hpc]
  rfl

/-- A tick from a state with no fault latched that ends with one has only committed its record, at whichever stage it
was raised. -/
theorem eq_commitFault_of_step {s t : State} {r : FaultRecord} (hf : s.fault = none) (h : step s = .next t)
    (hr : t.fault = some r) : t = s.commitFault r := by
  obtain ⟨r', hlatched, -⟩ | ⟨-, r', -, rfl⟩ | ⟨-, i, -, hexec⟩ := step_cases h
  · rw [hf] at hlatched
    cases hlatched
  · cases hr
    rfl
  · obtain hkept | ⟨code, addr, value, -, rfl⟩ := exec_keepsFault_or_faults hexec
    · rw [hr, State.advance_def, State.setPc_fault, hf] at hkept
      cases hkept
    · rw [State.faulted_advance] at hr ⊢
      cases hr
      rfl

/-- Settles O11: the tick has only committed the record, and it returns the record it leaves latched. -/
theorem faultingTickChangesOnlyTheLatch : Obligations.FaultingTickChangesOnlyTheLatch :=
  fun font _ _ _ hf h hr => ⟨eq_commitFault_of_step hf h hr, command_tick_of_step_fault font h hr⟩

end Sys2Proof.Machine

/-! ## Proofs: the compare skips (41_flow.md R124 to R127) -/

namespace Sys2Proof.Machine

/-! ### Skipping on a comparison of two bytes -/

theorem State.skipIf_beq (s : State) (a b : Byte) :
    s.skipIf (a == b) = { s with pc := if a = b then s.pc + 2 else s.pc } := by
  simp only [State.skipIf_eq, beq_iff_eq]
  rfl

theorem State.skipIf_bne (s : State) (a b : Byte) :
    s.skipIf (a != b) = { s with pc := if a = b then s.pc else s.pc + 2 } := by
  simp only [State.skipIf_eq, bne_iff_ne, ite_not]
  rfl

/-! ### The rows of the compare skips (R83) -/

theorem decodes_seImm : Decodes 0xF000 0x3000 fun w => .seImm (fieldX w) (fieldNN w) := by
  intro w h
  rw [decode, fieldO_of_and_F000 h]
  rfl

theorem decodes_sneImm : Decodes 0xF000 0x4000 fun w => .sneImm (fieldX w) (fieldNN w) := by
  intro w h
  rw [decode, fieldO_of_and_F000 h]
  rfl

theorem decodes_seReg : Decodes 0xF00F 0x5000 fun w => .seReg (fieldX w) (fieldY w) := by
  intro w h
  obtain ⟨hO, hN⟩ := fields_of_and_F00F h
  rw [decode, hO, decodeRegPair, hN]
  rfl

theorem decodes_sneReg : Decodes 0xF00F 0x9000 fun w => .sneReg (fieldX w) (fieldY w) := by
  intro w h
  obtain ⟨hO, hN⟩ := fields_of_and_F00F h
  rw [decode, hO, decodeRegPair, decodeRegPair, hN]
  rfl

/-- Settles O28: each row decodes to its instruction, whose meaning is a skip on a comparison of two bytes, for SE on
their equality and for SNE on their difference. -/
theorem compareSkips : Obligations.CompareSkips := by
  refine ⟨decodes_seImm, decodes_sneImm, decodes_seReg, decodes_sneReg, fun x y nn s => ⟨?_, ?_, ?_, ?_⟩⟩
  · rw [exec, execSeImm, State.skipIf_beq]
  · rw [exec, execSneImm, State.skipIf_bne]
  · rw [exec, execSeReg, State.skipIf_beq]
  · rw [exec, execSneReg, State.skipIf_bne]

end Sys2Proof.Machine

/-! ## Proofs: registers and the ALU (42_alu.md R150 to R165) -/

namespace Sys2Proof.Machine

/-! ### The rows of the ALU (R83) -/

theorem decodes_ldImm : Decodes 0xF000 0x6000 fun w => .ldImm (fieldX w) (fieldNN w) := by
  intro w h
  rw [decode, fieldO_of_and_F000 h]
  rfl

theorem decodes_addImm : Decodes 0xF000 0x7000 fun w => .addImm (fieldX w) (fieldNN w) := by
  intro w h
  rw [decode, fieldO_of_and_F000 h]
  rfl

/-- A row of major opcode 8 decodes as the arm of `decodeMajor8` that its pattern's n selects. -/
theorem decodes_of_decodeMajor8 {p : Word} {build : RegIx → RegIx → Instr} (hp : fieldO p = 0x8)
    (harm : ∀ w, fieldN w = fieldN p → decodeMajor8 w = .ok (build (fieldX w) (fieldY w))) :
    Decodes 0xF00F p fun w => build (fieldX w) (fieldY w) := by
  intro w h
  obtain ⟨hO, hN⟩ := fields_of_and_F00F h
  rw [decode, hO, hp]
  exact harm w hN

theorem decodes_ldReg : Decodes 0xF00F 0x8000 fun w => .ldReg (fieldX w) (fieldY w) :=
  decodes_of_decodeMajor8 rfl fun w hN => by rw [decodeMajor8, hN]; rfl

theorem decodes_or : Decodes 0xF00F 0x8001 fun w => .or (fieldX w) (fieldY w) :=
  decodes_of_decodeMajor8 rfl fun w hN => by rw [decodeMajor8, hN]; rfl

theorem decodes_and : Decodes 0xF00F 0x8002 fun w => .and (fieldX w) (fieldY w) :=
  decodes_of_decodeMajor8 rfl fun w hN => by rw [decodeMajor8, hN]; rfl

theorem decodes_xor : Decodes 0xF00F 0x8003 fun w => .xor (fieldX w) (fieldY w) :=
  decodes_of_decodeMajor8 rfl fun w hN => by rw [decodeMajor8, hN]; rfl

theorem decodes_addReg : Decodes 0xF00F 0x8004 fun w => .addReg (fieldX w) (fieldY w) :=
  decodes_of_decodeMajor8 rfl fun w hN => by rw [decodeMajor8, hN]; rfl

theorem decodes_sub : Decodes 0xF00F 0x8005 fun w => .sub (fieldX w) (fieldY w) :=
  decodes_of_decodeMajor8 rfl fun w hN => by rw [decodeMajor8, hN]; rfl

theorem decodes_shr : Decodes 0xF00F 0x8006 fun w => .shr (fieldX w) (fieldY w) :=
  decodes_of_decodeMajor8 rfl fun w hN => by rw [decodeMajor8, hN]; rfl

theorem decodes_subn : Decodes 0xF00F 0x8007 fun w => .subn (fieldX w) (fieldY w) :=
  decodes_of_decodeMajor8 rfl fun w hN => by rw [decodeMajor8, hN]; rfl

theorem decodes_shl : Decodes 0xF00F 0x800E fun w => .shl (fieldX w) (fieldY w) :=
  decodes_of_decodeMajor8 rfl fun w hN => by rw [decodeMajor8, hN]; rfl

/-! ### The meanings that write one register and no flag (R155 to R160) -/

section
variable (x y : RegIx) (nn : Byte) (s : State)

theorem exec_ldImm : exec (.ldImm x nn) s = .next (s.setV x nn) := rfl

theorem exec_addImm : exec (.addImm x nn) s = .next (s.setV x (add8 (s.getV x) nn).1) := rfl

theorem exec_ldReg : exec (.ldReg x y) s = .next (s.setV x (s.getV y)) := rfl

theorem exec_or : exec (.or x y) s = .next (s.setV x (s.getV x ||| s.getV y)) := rfl

theorem exec_and : exec (.and x y) s = .next (s.setV x (s.getV x &&& s.getV y)) := rfl

theorem exec_xor : exec (.xor x y) s = .next (s.setV x (s.getV x ^^^ s.getV y)) := rfl

end

/-- An instruction that ends in one register write: what holds of the byte written holds of that register, and nothing
else changes. -/
theorem exists_next_of_setV {i : Instr} {s : State} {x : RegIx} {b : Byte} (P : Byte → Prop)
    (h : exec i s = .next (s.setV x b)) (hb : P b) :
    ∃ t, exec i s = .next t ∧ t = { s with v := t.v } ∧ P (t.getV x) ∧ ∀ k, k ≠ x → t.getV k = s.getV k :=
  ⟨_, h, rfl, (s.getV_setV_self x b).symm ▸ hb, fun _ hk => s.getV_setV_of_ne hk b⟩

/-- Settles O29: both are one register write, of nn and of the sum. -/
theorem immediateLoadAndAdd : Obligations.ImmediateLoadAndAdd := by
  refine ⟨decodes_ldImm, decodes_addImm, fun x nn s => ⟨?_, ?_⟩⟩
  · exact exists_next_of_setV (· = nn) (exec_ldImm x nn s) rfl
  · exact exists_next_of_setV (·.toNat = ((s.getV x).toNat + nn.toNat) % 256) (exec_addImm x nn s)
      (add8_result _ _)

/-- Settles O30: each is one register write, of a copy or of a bitwise operation. -/
theorem copyAndLogic : Obligations.CopyAndLogic := by
  refine ⟨decodes_ldReg, decodes_or, decodes_and, decodes_xor, fun x y s => ⟨?_, ?_, ?_, ?_⟩⟩
  · exact exists_next_of_setV (· = s.getV y) (exec_ldReg x y s) rfl
  · exact exists_next_of_setV (fun r => ∀ b, r.getLsbD b = ((s.getV x).getLsbD b || (s.getV y).getLsbD b))
      (exec_or x y s) fun _ => BitVec.getLsbD_or
  · exact exists_next_of_setV (fun r => ∀ b, r.getLsbD b = ((s.getV x).getLsbD b && (s.getV y).getLsbD b))
      (exec_and x y s) fun _ => BitVec.getLsbD_and
  · exact exists_next_of_setV (fun r => ∀ b, r.getLsbD b = ((s.getV x).getLsbD b ^^ (s.getV y).getLsbD b))
      (exec_xor x y s) fun _ => BitVec.getLsbD_xor

/-! ### Result, then flag: 8xy4, 8xy5 and 8xy7 (R154) -/

section
variable (s : State) (x : RegIx) (r : Byte × Byte)

/-- The flag is written last, so VF holds it for every x. -/
@[simp] theorem State.getV_vf_setResultThenFlag : (s.setResultThenFlag x r).getV vf = r.2 :=
  (s.setV x r.1).getV_setV_self vf r.2

variable {x}

theorem State.getV_setResultThenFlag_of_ne_vf (hx : x ≠ vf) : (s.setResultThenFlag x r).getV x = r.1 := by
  rw [State.setResultThenFlag, State.setVF_def, State.getV_setV_of_ne _ hx, State.getV_setV_self]

theorem State.getV_setResultThenFlag_of_ne {k : RegIx} (hk : k ≠ x) (hvf : k ≠ vf) :
    (s.setResultThenFlag x r).getV k = s.getV k := by
  rw [State.setResultThenFlag, State.setVF_def, State.getV_setV_of_ne _ hvf, State.getV_setV_of_ne _ hk]

end

section
variable (x y : RegIx) (s : State)

theorem exec_addReg : exec (.addReg x y) s = .next (s.setResultThenFlag x (add8 (s.getV x) (s.getV y))) := rfl

theorem exec_sub : exec (.sub x y) s = .next (s.setResultThenFlag x (sub8 (s.getV x) (s.getV y))) := rfl

theorem exec_subn : exec (.subn x y) s = .next (s.setResultThenFlag x (sub8 (s.getV y) (s.getV x))) := rfl

end

/-- The flag of a subtraction, as its borrow (R151). -/
theorem sub8_borrow (a b : Byte) : (sub8 a b).2 = if a.toNat < b.toNat then 0 else 1 := by
  simp only [sub8_notBorrow, ← Nat.not_lt, ite_not]

/-- An instruction that ends in a result and then a flag, in the terms of R154. -/
theorem exists_next_of_setResultThenFlag {i : Instr} {s : State} {x : RegIx} {r : Byte × Byte} {flag : Byte}
    {result : Nat} (h : exec i s = .next (s.setResultThenFlag x r)) (hflag : r.2 = flag)
    (hresult : r.1.toNat = result) :
    ∃ t, exec i s = .next t ∧ t = { s with v := t.v } ∧ t.getV 15 = flag ∧
      (x ≠ 15 → (t.getV x).toNat = result) ∧ ∀ k, k ≠ x → k ≠ 15 → t.getV k = s.getV k := by
  refine ⟨_, h, rfl, ?_, fun hx => ?_, fun k hk hvf => ?_⟩
  · exact (s.getV_vf_setResultThenFlag x r).trans hflag
  · rw [s.getV_setResultThenFlag_of_ne_vf r hx, hresult]
  · exact s.getV_setResultThenFlag_of_ne r hk hvf

/-- Settles O31: the result and the flag are the sum and the carry of the old values. -/
theorem addRegistersWithCarry : Obligations.AddRegistersWithCarry :=
  ⟨decodes_addReg, fun x y s =>
    exists_next_of_setResultThenFlag (exec_addReg x y s) (add8_carry _ _) (add8_result _ _)⟩

/-- Settles O32: the result and the flag are the difference and the not-borrow of the old values. -/
theorem subtractWithNotBorrow : Obligations.SubtractWithNotBorrow := by
  refine ⟨decodes_sub, decodes_subn, fun x y s => ⟨?_, ?_⟩⟩
  · exact exists_next_of_setResultThenFlag (exec_sub x y s) (sub8_borrow _ _) (sub8_result _ _)
  · exact exists_next_of_setResultThenFlag (exec_subn x y s) (sub8_borrow _ _) (sub8_result _ _)

/-! ### Flag, then shift in place: 8xy6 and 8xyE (R154) -/

/-- Write VF, then shift `V[x]` in place, which shifts the flag itself when x = 15: the order of 8xy6 and 8xyE. -/
def State.setFlagThenShift (s : State) (x : RegIx) (flag : Byte) (shift : Byte → Byte) : State :=
  (s.setVF flag).setV x (shift ((s.setVF flag).getV x))

/-- SHR is the right shift by one, whatever y (R163). -/
theorem exec_shr (x y : RegIx) (s : State) :
    exec (.shr x y) s = .next (s.setFlagThenShift x (shrOut (s.getV x)) shr8) := rfl

/-- SHL is the left shift by one, whatever y (R165). -/
theorem exec_shl (x y : RegIx) (s : State) :
    exec (.shl x y) s = .next (s.setFlagThenShift x (shlOut (s.getV x)) shl8) := rfl

section
variable (s : State) (flag : Byte) (shift : Byte → Byte)

@[simp] theorem State.getV_vf_setFlagThenShift_vf : (s.setFlagThenShift vf flag shift).getV vf = shift flag := by
  rw [State.setFlagThenShift, State.getV_setV_self, State.setVF_def, State.getV_setV_self]

variable {x : RegIx}

theorem State.getV_setFlagThenShift_of_ne_vf (hx : x ≠ vf) :
    (s.setFlagThenShift x flag shift).getV x = shift (s.getV x) := by
  rw [State.setFlagThenShift, State.getV_setV_self, State.setVF_def, State.getV_setV_of_ne _ hx]

theorem State.getV_vf_setFlagThenShift_of_ne_vf (hx : x ≠ vf) :
    (s.setFlagThenShift x flag shift).getV vf = flag := by
  rw [State.setFlagThenShift, State.getV_setV_of_ne _ hx.symm, State.setVF_def, State.getV_setV_self]

theorem State.getV_setFlagThenShift_of_ne {k : RegIx} (hk : k ≠ x) (hvf : k ≠ vf) :
    (s.setFlagThenShift x flag shift).getV k = s.getV k := by
  rw [State.setFlagThenShift, State.getV_setV_of_ne _ hk, State.setVF_def, State.getV_setV_of_ne _ hvf]

end

/-- 8Fy6: the flag is 0 or 1, and its right shift is 0. -/
theorem shr8_shrOut (a : Byte) : shr8 (shrOut a) = 0 := by
  apply BitVec.eq_of_toNat_eq
  rw [shr8_toNat, shrOut_toNat]
  exact Nat.div_eq_of_lt (Nat.mod_lt _ Nat.two_pos)

/-- 8FyE: the flag is 0 or 1, and its left shift is its double, with nothing to truncate. -/
theorem shl8_shlOut_toNat (a : Byte) : (shl8 (shlOut a)).toNat = 2 * (a.toNat / 128) := by
  have := a.isLt
  rw [shl8_toNat, shlOut_toNat]
  omega

/-- An instruction that ends in a flag and then a shift in place, whatever y, in the terms of R154: two registers are
written when x is not 15, and with x = 15 the shift is of the flag. -/
theorem exists_next_of_setFlagThenShift {i : RegIx → Instr} {s : State} {x : RegIx} {flag : Byte}
    {shift : Byte → Byte} {shifted out : Nat} (P : Byte → Prop)
    (h : ∀ y, exec (i y) s = .next (s.setFlagThenShift x flag shift))
    (hshifted : (shift (s.getV x)).toNat = shifted) (hout : flag.toNat = out) (hvf : x = 15 → P (shift flag)) :
    ∃ t, (∀ y, exec (i y) s = .next t) ∧ t = { s with v := t.v } ∧
      (x ≠ 15 → (t.getV x).toNat = shifted ∧ (t.getV 15).toNat = out) ∧ (x = 15 → P (t.getV 15)) ∧
      ∀ k, k ≠ x → k ≠ 15 → t.getV k = s.getV k := by
  refine ⟨_, h, rfl, fun hx => ⟨?_, ?_⟩, ?_, fun k hk hk15 => ?_⟩
  · rw [State.getV_setFlagThenShift_of_ne_vf _ _ _ hx, hshifted]
  · rw [State.getV_vf_setFlagThenShift_of_ne_vf _ _ _ hx, hout]
  · rintro rfl
    rw [State.getV_vf_setFlagThenShift_vf]
    exact hvf rfl
  · exact State.getV_setFlagThenShift_of_ne _ _ _ hk hk15

/-- Settles O33: the shift and the bit shifted out are those of the old value; with x = 15 it is that bit which is
shifted. -/
theorem shiftsByOne : Obligations.ShiftsByOne := by
  refine ⟨decodes_shr, decodes_shl, fun x s => ⟨?_, ?_⟩⟩
  · exact exists_next_of_setFlagThenShift (· = 0) (exec_shr x · s) (shr8_toNat _) (shrOut_toNat _)
      fun _ => shr8_shrOut _
  · exact exists_next_of_setFlagThenShift (·.toNat = 2 * ((s.getV 15).toNat / 128)) (exec_shl x · s)
      (shl8_toNat _) (shlOut_toNat _) fun hx => hx ▸ shl8_shlOut_toNat (s.getV x)

end Sys2Proof.Machine

/-! ## Proofs: the index register and memory (43_index_memory.md R180 to R186) -/

namespace Sys2Proof.Machine

/-! ### The rows of the index and memory instructions (R83) -/

theorem decodes_ldI : Decodes 0xF000 0xA000 fun w => .ldI (fieldNNN w) := by
  intro w h
  rw [decode, fieldO_of_and_F000 h]
  rfl

/-- A row of major opcode F decodes as the arm of `decodeMajorF` that its pattern's nn selects. -/
theorem decodes_of_decodeMajorF {p : Word} {build : RegIx → Instr} (hp : fieldO p = 0xF)
    (harm : ∀ w, fieldNN w = fieldNN p → decodeMajorF w = .ok (build (fieldX w))) :
    Decodes 0xF0FF p fun w => build (fieldX w) := by
  intro w h
  obtain ⟨hO, hNN⟩ := fields_of_and_F0FF h
  rw [decode, hO, hp]
  exact harm w hNN

theorem decodes_addI : Decodes 0xF0FF 0xF01E fun w => .addI (fieldX w) :=
  decodes_of_decodeMajorF rfl fun w hNN => by rw [decodeMajorF, hNN]; rfl

theorem decodes_ldF : Decodes 0xF0FF 0xF029 fun w => .ldF (fieldX w) :=
  decodes_of_decodeMajorF rfl fun w hNN => by rw [decodeMajorF, hNN]; rfl

theorem decodes_ldB : Decodes 0xF0FF 0xF033 fun w => .ldB (fieldX w) :=
  decodes_of_decodeMajorF rfl fun w hNN => by rw [decodeMajorF, hNN]; rfl

theorem decodes_stRegs : Decodes 0xF0FF 0xF055 fun w => .stRegs (fieldX w) :=
  decodes_of_decodeMajorF rfl fun w hNN => by rw [decodeMajorF, hNN]; rfl

theorem decodes_ldRegs : Decodes 0xF0FF 0xF065 fun w => .ldRegs (fieldX w) :=
  decodes_of_decodeMajorF rfl fun w hNN => by rw [decodeMajorF, hNN]; rfl

/-! ### The meanings that write I (R180 to R182) -/

section
variable (nnn : Addr12) (x : RegIx) (s : State)

theorem exec_ldI : exec (.ldI nnn) s = .next (s.setI (zextAddr nnn)) := rfl

theorem exec_addI : exec (.addI x) s = .next (s.setI (s.i + zextByte (s.getV x))) := rfl

theorem exec_ldF : exec (.ldF x) s = .next (s.setI (BitVec.ofNat 16 ((s.getV x).toNat * Config.glyphBytes))) :=
  rfl

end

theorem add_zextByte_toNat (w : Word) (b : Byte) : (w + zextByte b).toNat = (w.toNat + b.toNat) % 65536 := by
  rw [BitVec.toNat_add, zextByte_toNat]

/-- The address of a glyph never wraps: it is at most 255 * 5 (R182). -/
theorem glyphAddress_toNat (b : Byte) : (BitVec.ofNat 16 (b.toNat * Config.glyphBytes)).toNat = b.toNat * 5 := by
  have := b.isLt
  rw [BitVec.toNat_ofNat]
  exact Nat.mod_eq_of_lt (show b.toNat * 5 < 65536 by omega)

/-- An instruction that ends in a write of I changes nothing else. -/
theorem exists_next_of_setI {i : Instr} {s : State} {w : Word} {result : Nat} (h : exec i s = .next (s.setI w))
    (hw : w.toNat = result) : ∃ t, exec i s = .next t ∧ t = { s with i := t.i } ∧ t.i.toNat = result :=
  ⟨_, h, rfl, hw⟩

/-- Settles O35: each is one write of I, of nnn, of the wrapping sum and of the glyph's address. -/
theorem indexRegisterWrites : Obligations.IndexRegisterWrites := by
  refine ⟨decodes_ldI, decodes_addI, decodes_ldF, fun nnn x s => ⟨?_, ?_, ?_⟩⟩
  · exact exists_next_of_setI (exec_ldI nnn s) (zextAddr_toNat nnn)
  · exact exists_next_of_setI (exec_addI x s) (add_zextByte_toNat _ _)
  · exact exists_next_of_setI (exec_ldF x s) (glyphAddress_toNat _)

/-! ### The meanings that access the bytes from I (R183 to R186) -/

/-- Store bytes at ascending addresses from I: the effect of Fx33 and Fx55 in range (R183, R184). -/
def State.storeAtI (s : State) (bs : List Byte) : State := s.setMem (s.mem.writeBytes s.i.toNat bs)

section
variable (x : RegIx) (s : State)

theorem exec_ldB : exec (.ldB x) s = withBlock (.ldB x) 3 s (s.storeAtI (bcdDigits (s.getV x))) := rfl

theorem exec_stRegs : exec (.stRegs x) s = withBlock (.stRegs x) (x.val + 1) s (s.storeAtI (s.regsUpTo x)) := rfl

theorem exec_ldRegs : exec (.ldRegs x) s =
    withBlock (.ldRegs x) (x.val + 1) s (s.setVs (s.mem.readBytes s.i.toNat (x.val + 1))) := rfl

end

/-- R186: an instruction whose block from I ends at a byte outside memory faults with the lowest such address. -/
theorem exec_outOfRange_of_withBlock {i : Instr} {s k : State} {n : Nat} (h : exec i s = withBlock i (n + 1) s k)
    (hr : 4096 ≤ s.i.toNat + n) :
    exec i s = .next (s.faulted .memoryOutOfRange (encode i) (some (max s.i.toNat 4096)) none) :=
  h.trans (withBlock_outOfRange n.succ_pos (Nat.lt_succ_of_le hr) i k)

/-- An instruction whose block from I lies in memory and which stores a list there: byte k of the list goes to I + k,
and nothing else changes. -/
theorem exists_next_of_storeAtI {i : Instr} {s : State} {bs : List Byte} {n : Nat} (hlen : bs.length = n)
    (h : exec i s = withBlock i n s (s.storeAtI bs)) (hwf : s.mem.wf = true)
    (hr : s.i.toNat + n ≤ Config.memSize) :
    ∃ t, exec i s = .next t ∧ t = { s with mem := t.mem } ∧
      (∀ (k : Nat) (hk : k < bs.length), t.mem.read (s.i.toNat + k) = bs[k]) ∧
      KeepsMemoryOutside s.i.toNat n s t := by
  subst hlen
  refine ⟨_, h.trans (withBlock_inRange (.inl hr) i _), rfl, fun k hk => ?_, fun b hb => ?_⟩
  · exact Memory.read_writeBytes_at hwf hr hk
  · exact Memory.read_writeBytes_outside hwf hr hb

@[simp] theorem length_bcdDigits (b : Byte) : (bcdDigits b).length = 3 := rfl

/-- The digits of a byte as numbers: none of them is cut to 8 bits (R183). -/
theorem getElem_bcdDigits_toNat (b : Byte) :
    (bcdDigits b)[0].toNat = b.toNat / 100 ∧ (bcdDigits b)[1].toNat = b.toNat / 10 % 10 ∧
      (bcdDigits b)[2].toNat = b.toNat % 10 := by
  have := b.isLt
  refine ⟨?_, ?_, ?_⟩ <;> exact Nat.mod_eq_of_lt (by omega)

/-- Settles O36: the block is the three digits, stored in order. -/
theorem decimalDigitsAreStored : Obligations.DecimalDigitsAreStored := by
  refine ⟨decodes_ldB, fun x s hwf hr => ?_, fun x s hr => exec_outOfRange_of_withBlock (exec_ldB x s) hr⟩
  obtain ⟨t, hexec, hframe, hread, hkeeps⟩ :=
    exists_next_of_storeAtI (length_bcdDigits _) (exec_ldB x s) hwf (Nat.succ_le_of_lt hr)
  obtain ⟨hhundreds, htens, hones⟩ := getElem_bcdDigits_toNat (s.getV x)
  have hdigit (k : Nat) (hk : k < (bcdDigits (s.getV x)).length) := congrArg BitVec.toNat (hread k hk)
  exact ⟨t, hexec, hframe, (hdigit 0 _).trans hhundreds, (hdigit 1 _).trans htens, (hdigit 2 _).trans hones, hkeeps⟩

/-- Settles O37: the block is V0 to Vx, stored in order. -/
theorem registersAreStored : Obligations.RegistersAreStored := by
  refine ⟨decodes_stRegs, fun x s hwf hr => ?_, fun x s hr => exec_outOfRange_of_withBlock (exec_stRegs x s) hr⟩
  have hlen : (s.regsUpTo x).length = x.val + 1 := s.length_regsUpTo x
  obtain ⟨t, hexec, hframe, hread, hkeeps⟩ :=
    exists_next_of_storeAtI hlen (exec_stRegs x s) hwf (Nat.succ_le_of_lt hr)
  refine ⟨t, hexec, hframe, fun k hkx => ?_, hkeeps⟩
  rw [hread k (hlen ▸ Nat.lt_succ_of_le hkx), State.getElem_regsUpTo]

/-- After a load of the first `n` registers from memory, each of them holds the byte at its place in the block and
the others keep their values. -/
theorem State.getV_setVs_readBytes (s : State) (a : Nat) {n : Nat} (hn : n ≤ 16) (k : RegIx) :
    (s.setVs (s.mem.readBytes a n)).getV k = if k.val < n then s.mem.read (a + k.val) else s.getV k := by
  rw [State.getV_setVs s ((s.mem.length_readBytes a n).trans_le hn)]
  simp only [Memory.length_readBytes, Memory.getElem_readBytes, dite_eq_ite]

/-- Settles O38: the registers loaded are those up to x, each from its own address. -/
theorem registersAreLoaded : Obligations.RegistersAreLoaded := by
  refine ⟨decodes_ldRegs, fun x s hr => ?_, fun x s hr => exec_outOfRange_of_withBlock (exec_ldRegs x s) hr⟩
  refine ⟨_, (exec_ldRegs x s).trans (withBlock_inRange (.inl (Nat.succ_le_of_lt hr)) _ _), rfl,
    fun k hkx => ?_, fun k hxk => ?_⟩
  · rw [State.getV_setVs_readBytes s _ x.isLt, if_pos (Nat.lt_succ_of_le hkx)]
  · rw [State.getV_setVs_readBytes s _ x.isLt, if_neg (Nat.not_lt.mpr hxk)]

end Sys2Proof.Machine

/-! ## Proofs: the framebuffer instructions (44_display.md R201, R202) -/

namespace Sys2Proof.Machine

/-! ### The rows of the framebuffer instructions (R83) -/

theorem decodes_cls : Decodes 0xFFFF 0x00E0 fun _ => .cls := by
  intro w h
  rw [eq_of_and_FFFF h]
  rfl

theorem decodes_drw : Decodes 0xF000 0xD000 fun w => .drw (fieldX w) (fieldY w) (fieldN w).toNat := by
  intro w h
  rw [decode, fieldO_of_and_F000 h]
  rfl

/-! ### 00E0 (R201) -/

theorem exec_cls (s : State) : exec .cls s = .next (s.setDisplay Display.clear) := rfl

/-- Settles O40: the instruction is one write of the framebuffer, of the cleared one. -/
theorem clearScreenUnlightsEveryCell : Obligations.ClearScreenUnlightsEveryCell :=
  ⟨decodes_cls, fun s => ⟨_, exec_cls s, rfl, Display.lit_clear⟩⟩

/-! ### The collision flag of a draw (R202) -/

@[simp] theorem b2i_eq_one_iff (c : Bool) : b2i c = 1 ↔ c = true := by cases c <;> decide

theorem b2i_eq_one_or_zero (c : Bool) : b2i c = 1 ∨ b2i c = 0 := by cases c <;> decide

/-- A draw collides exactly when some cell goes from lit to unlit: a cell it covers is flipped, and any other keeps
its value. -/
theorem Display.draw_collision_iff_unlit (d : Display) (m : Memory) (a : Nat) (cx cy : Byte) {n : Nat}
    (hn : n ≤ 32) :
    (d.draw cx cy (m.readBytes a n)).2 = true ↔
      ∃ c r, d.lit c r = true ∧ (d.draw cx cy (m.readBytes a n)).1.lit c r = false := by
  rw [Display.draw_collision d m a cx cy hn]
  refine exists_congr fun c => exists_congr fun r => ?_
  obtain ⟨hflip, hkeep⟩ := d.lit_draw m a cx cy hn c r
  by_cases hcov : SpriteCovers m a cx cy n c r
  · simp [hflip hcov, hcov]
  · simp [hkeep hcov, hcov]

/-! ### The effect of a draw in range (R202) -/

section
variable (s : State) (x y : RegIx) (n : Nat)

theorem exec_drw : exec (.drw x y n) s = withBlock (.drw x y n) n s (s.drawSprite x y n) := rfl

theorem State.drawSprite_display : (s.drawSprite x y n).display =
    (s.display.draw (s.getV x) (s.getV y) (s.mem.readBytes s.i.toNat n)).1 := rfl

/-- VF is written last, from the framebuffer and the coordinates before the draw. -/
theorem State.getV_vf_drawSprite : (s.drawSprite x y n).getV vf =
    b2i (s.display.draw (s.getV x) (s.getV y) (s.mem.readBytes s.i.toNat n)).2 :=
  State.getV_setV_self _ vf _

theorem State.getV_drawSprite_of_ne {k : RegIx} (hk : k ≠ vf) : (s.drawSprite x y n).getV k = s.getV k :=
  State.getV_setV_of_ne _ hk _

/-- VF after a draw is 1 exactly when the draw has unlit a cell. -/
theorem State.getV_vf_drawSprite_eq_one_iff {n : Nat} (hn : n ≤ 32) :
    (s.drawSprite x y n).getV vf = 1 ↔
      ∃ c r, s.display.lit c r = true ∧ (s.drawSprite x y n).display.lit c r = false := by
  rw [State.getV_vf_drawSprite, b2i_eq_one_iff, State.drawSprite_display]
  exact s.display.draw_collision_iff_unlit s.mem s.i.toNat _ _ hn

end

/-- In range, or with no rows, the instruction draws its sprite. -/
theorem exec_drw_inRange {s : State} {n : Nat} (hr : n = 0 ∨ s.i.toNat + n - 1 < 4096) (x y : RegIx) :
    exec (.drw x y n) s = .next (s.drawSprite x y n) := by
  have hblock : s.i.toNat + n ≤ 4096 ∨ n = 0 := by omega
  exact (exec_drw s x y n).trans (withBlock_inRange hblock _ _)

/-- A sprite with a row outside memory is a fault at the lowest address outside memory, and nothing is drawn. -/
theorem exec_drw_outOfRange {s : State} {n : Nat} (hn : 0 < n) (hr : 4096 ≤ s.i.toNat + n - 1) (x y : RegIx) :
    exec (.drw x y n) s =
      .next (s.faulted .memoryOutOfRange (encode (.drw x y n)) (some (max s.i.toNat 4096)) none) := by
  have hblock : 4096 < s.i.toNat + n := by omega
  exact (exec_drw s x y n).trans (withBlock_outOfRange hn hblock _ _)

/-- Settles O41: in range the state after the instruction is that of a draw, whose cells and flag are those of the
framebuffer's laws; out of range the range check raises the fault. -/
theorem drawXorsTheSprite : Obligations.DrawXorsTheSprite := by
  refine ⟨decodes_drw, fun x y n s hn hr => ?_, fun x y n s hn hr => exec_drw_outOfRange hn hr x y⟩
  have hrows : n ≤ 32 := by omega
  have hcell := s.display.lit_draw s.mem s.i.toNat (s.getV x) (s.getV y) hrows
  refine ⟨_, exec_drw_inRange hr x y, rfl, fun c r => (hcell c r).1, fun c r => (hcell c r).2, ?_,
    s.getV_vf_drawSprite_eq_one_iff x y hrows, fun k hk => s.getV_drawSprite_of_ne x y n hk⟩
  rw [State.getV_vf_drawSprite]
  exact b2i_eq_one_or_zero _

end Sys2Proof.Machine

/-! ## Proofs: the keypad and the timers (45_timers_keypad.md R220 to R225) -/

namespace Sys2Proof.Machine

/-! ### The rows of the keypad and timer instructions (R83) -/

/-- A row of major opcode E decodes as the arm of `decodeMajorE` that its pattern's nn selects. -/
theorem decodes_of_decodeMajorE {p : Word} {build : RegIx → Instr} (hp : fieldO p = 0xE)
    (harm : ∀ w, fieldNN w = fieldNN p → decodeMajorE w = .ok (build (fieldX w))) :
    Decodes 0xF0FF p fun w => build (fieldX w) := by
  intro w h
  obtain ⟨hO, hNN⟩ := fields_of_and_F0FF h
  rw [decode, hO, hp]
  exact harm w hNN

theorem decodes_skp : Decodes 0xF0FF 0xE09E fun w => .skp (fieldX w) :=
  decodes_of_decodeMajorE rfl fun w hNN => by rw [decodeMajorE, hNN]; rfl

theorem decodes_sknp : Decodes 0xF0FF 0xE0A1 fun w => .sknp (fieldX w) :=
  decodes_of_decodeMajorE rfl fun w hNN => by rw [decodeMajorE, hNN]; rfl

theorem decodes_ldVxDt : Decodes 0xF0FF 0xF007 fun w => .ldVxDt (fieldX w) :=
  decodes_of_decodeMajorF rfl fun w hNN => by rw [decodeMajorF, hNN]; rfl

theorem decodes_ldK : Decodes 0xF0FF 0xF00A fun w => .ldK (fieldX w) :=
  decodes_of_decodeMajorF rfl fun w hNN => by rw [decodeMajorF, hNN]; rfl

theorem decodes_ldDt : Decodes 0xF0FF 0xF015 fun w => .ldDt (fieldX w) :=
  decodes_of_decodeMajorF rfl fun w hNN => by rw [decodeMajorF, hNN]; rfl

theorem decodes_ldSt : Decodes 0xF0FF 0xF018 fun w => .ldSt (fieldX w) :=
  decodes_of_decodeMajorF rfl fun w hNN => by rw [decodeMajorF, hNN]; rfl

/-! ### Fx0A: the wait for a key (R223) -/

section
variable {s : State}

theorem exec_ldK_of_lowestKey {k : Nat} (h : s.lowestKey = some k) (x : RegIx) :
    exec (.ldK x) s = .next (s.setV x (BitVec.ofNat 8 k)) := by
  rw [exec, execLdK, h]

/-- With no key pressed, the state at the start of the tick is restored. -/
theorem exec_ldK_of_none_pressed (h : ∀ k, s.key k = false) (x : RegIx) : exec (.ldK x) s = .next s.tickStart := by
  rw [exec, execLdK, State.lowestKey_eq_none h]
  rfl

theorem State.tickReply_of_no_fault (hf : s.fault = none) : s.tickReply = .ok := by
  rw [State.tickReply, hf]

end

/-- Undoing the fetch's advance of pc gives the state at the start of the tick (R103). -/
theorem State.tickStart_advance (s : State) : s.advance.tickStart = s := by
  have hpc : s.pc + 2 - 2 = s.pc := BitVec.add_sub_cancel s.pc 2
  calc s.advance.tickStart = s.setPc (s.pc + 2 - 2) := rfl
    _ = s := by rw [hpc]; rfl

/-- A key index is not cut to 8 bits. -/
theorem keyByte_toNat (k : Fin 16) : (BitVec.ofNat 8 k.val).toNat = k.val := by
  rw [BitVec.toNat_ofNat]
  exact Nat.mod_eq_of_lt (by omega)

/-- R223: a tick that waits for a key ends in the state it started from. -/
theorem step_of_ldK_of_none_pressed {s : State} {x : RegIx} (hkeys : ∀ k, s.key k = false) (hf : s.fault = none)
    (hpc : s.pc.toNat + 1 < Config.memSize) (hd : decode s.fetchWord = .ok (.ldK x)) : step s = .next s := by
  calc step s = exec (.ldK x) s.advance := step_of_fetchDecode_ok hf (State.fetchDecode_ok.mpr ⟨hpc, hd⟩)
    _ = .next s.advance.tickStart := exec_ldK_of_none_pressed (s := s.advance) hkeys x
    _ = .next s := by rw [State.tickStart_advance]

/-- Settles O44: with a key pressed it is one register write, of the index the scan finds; with none it restores the
state at the start of the tick, in which no fault is latched. -/
theorem keyWaitStoresLowestKeyOrRepeats : Obligations.KeyWaitStoresLowestKeyOrRepeats := by
  refine ⟨decodes_ldK, fun x s k hk hlow => ?_, fun x s hkeys => exec_ldK_of_none_pressed hkeys x,
    fun x s hkeys hf hpc hd => ?_⟩
  · exact exists_next_of_setV (·.toNat = k.val) (exec_ldK_of_lowestKey (State.lowestKey_eq_some hk hlow) x)
      (keyByte_toNat k)
  · have hstep : step s = .next s := step_of_ldK_of_none_pressed hkeys hf hpc hd
    exact ⟨hstep, fun font => by rw [command_tick_of_step font hstep, State.tickReply_of_no_fault hf]⟩

/-! ### Ex9E and ExA1: the key skips (R220, R221) -/

theorem keyIndex_eq_some {b : Byte} {k : Fin 16} (h : b.toNat = k.val) : keyIndex b = some k := by
  rw [keyIndex_of_lt (h.trans_lt k.isLt)]
  exact congrArg some (Fin.ext h)

/-- Skipping unless a condition holds. -/
theorem State.skipIf_not (s : State) (c : Bool) : s.skipIf (!c) = s.setPc (if c then s.pc else s.pc + 2) := by
  cases c <;> rfl

section
variable {s : State} {x : RegIx}

theorem exec_skp_of_key {k : Fin 16} (hk : (s.getV x).toNat = k.val) :
    exec (.skp x) s = .next (s.setPc (if s.key k then s.pc + 2 else s.pc)) := by
  rw [exec, execSkp, keyIndex_eq_some hk, ← State.skipIf_eq]

theorem exec_sknp_of_key {k : Fin 16} (hk : (s.getV x).toNat = k.val) :
    exec (.sknp x) s = .next (s.setPc (if s.key k then s.pc else s.pc + 2)) := by
  rw [exec, execSknp, keyIndex_eq_some hk, ← State.skipIf_not]

theorem exec_skp_of_key_outOfRange (h : 15 < (s.getV x).toNat) :
    exec (.skp x) s = .next (s.faulted .keyIndexOutOfRange (encode (.skp x)) none (some (s.getV x))) := by
  rw [exec, execSkp, keyIndex_of_ge h, ← raise_eq]

theorem exec_sknp_of_key_outOfRange (h : 15 < (s.getV x).toNat) :
    exec (.sknp x) s = .next (s.faulted .keyIndexOutOfRange (encode (.sknp x)) none (some (s.getV x))) := by
  rw [exec, execSknp, keyIndex_of_ge h, ← raise_eq]

end

/-- Settles O43: V[x] names a key, whose flag decides the skip, or names none, and the fault is raised. -/
theorem keySkips : Obligations.KeySkips :=
  ⟨decodes_skp, decodes_sknp, fun _ _ _ hk => ⟨exec_skp_of_key hk, exec_sknp_of_key hk⟩,
    fun _ _ h => ⟨exec_skp_of_key_outOfRange h, exec_sknp_of_key_outOfRange h⟩⟩

/-! ### Fx07, Fx15 and Fx18: the timers (R222, R224, R225) -/

section
variable (x : RegIx) (s : State)

theorem exec_ldVxDt : exec (.ldVxDt x) s = .next (s.setV x s.dt) := rfl

theorem exec_ldDt : exec (.ldDt x) s = .next (s.setDt (s.getV x)) := rfl

theorem exec_ldSt : exec (.ldSt x) s = .next (s.setSt (s.getV x)) := rfl

end

/-- Settles O45: Fx07 is one register write, of DT, and the others are one write of a timer each. -/
theorem timerTransfers : Obligations.TimerTransfers :=
  ⟨decodes_ldVxDt, decodes_ldDt, decodes_ldSt, fun x s =>
    ⟨exists_next_of_setV (· = s.dt) (exec_ldVxDt x s) rfl, exec_ldDt x s, exec_ldSt x s⟩⟩

end Sys2Proof.Machine

/-! ## Proofs: the fields of a latched record (60_exceptions.md R240, R241) -/

namespace Sys2Proof.Machine

theorem FaultCode.one_le_number (c : FaultCode) : 1 ≤ c.number := by cases c <;> decide

theorem FaultCode.number_le_six (c : FaultCode) : c.number ≤ 6 := by cases c <;> decide

/-! ### The extra fields that a cause of a fault gives its record -/

section
variable {s : State} {i : Instr} {code : FaultCode} {addr : Option Nat} {value : Option Byte}

/-- `PcOutOfRange` comes from the fetch alone. -/
theorem FaultCause.code_ne_pcOutOfRange (h : FaultCause s i code addr value) : code ≠ .pcOutOfRange := by
  cases h <;> exact FaultCode.noConfusion

theorem FaultCause.addr_eq (h : FaultCause s i code addr value) :
    addr = if code = .memoryOutOfRange then some (max s.i.toNat Config.memSize) else none := by
  cases h <;> rfl

/-- The register a key skip names is the field x of its word (R81). -/
theorem FaultCause.value_eq (h : FaultCause s i code addr value) :
    value = if code = .keyIndexOutOfRange then some (s.getV (fieldX (encode i))) else none := by
  cases h with
  | skp x | sknp x => rw [if_pos rfl, encode, fieldX_packXNN]
  | underflow | overflow | drw | ldB | stRegs | ldRegs => rfl

end

/-! ### Where a latched record comes from -/

/-- R91: the fetched word is the encoding of its instruction, so a record may give either. -/
theorem State.encode_of_fetchDecode {s : State} {i : Instr} (hd : s.fetchDecode = .ok i) :
    encode i = s.fetchWord := by
  obtain ⟨-, hword⟩ := State.fetchDecode_ok.mp hd
  exact (wellFormed_and_encode_of_decode hword).2

/-- A tick from a state with no fault latched latches the record its fetch or decode answers, or one whose extra
fields a cause of a fault of the decoded instruction gives. -/
theorem latchedRecord_cases {s t : State} {r : FaultRecord} (hf : s.fault = none) (h : step s = .next t)
    (hr : t.fault = some r) :
    s.fetchDecode = .error r ∨
      ∃ i code addr value, s.fetchDecode = .ok i ∧ FaultCause s.advance i code addr value ∧
        r = ⟨code, s.pc, some s.fetchWord, addr, value⟩ := by
  obtain ⟨r', hlatched, -⟩ | ⟨-, r', hd, rfl⟩ | ⟨-, i, hd, hexec⟩ := step_cases h
  · rw [hf] at hlatched
    cases hlatched
  · cases hr
    exact .inl hd
  · obtain hkept | ⟨code, addr, value, hcause, rfl⟩ := exec_keepsFault_or_faults hexec
    · rw [hr, State.advance_def, State.setPc_fault, hf] at hkept
      cases hkept
    · rw [State.faulted_advance, State.encode_of_fetchDecode hd] at hr
      cases hr
      exact .inr ⟨i, code, addr, value, hd, hcause, rfl⟩

/-- Settles O12: a record of the fetch or decode has its fields written out, and one of an instruction has the fields
that the cause of its fault gives, with the fetched word as the instruction's encoding. -/
theorem faultRecordFields : Obligations.FaultRecordFields := by
  intro s t r hf h hr
  refine ⟨r.code.one_le_number, r.code.number_le_six, ?_⟩
  obtain hd | ⟨i, code, addr, value, hd, hcause, rfl⟩ := latchedRecord_cases hf h hr
  · obtain ⟨-, rfl⟩ | ⟨-, -, rfl⟩ := State.fetchDecode_error hd
    · exact ⟨rfl, rfl, rfl, rfl⟩
    · exact ⟨rfl, rfl, rfl, rfl⟩
  · refine ⟨rfl, (if_neg hcause.code_ne_pcOutOfRange).symm, hcause.addr_eq, ?_⟩
    rw [← State.encode_of_fetchDecode hd]
    exact hcause.value_eq

end Sys2Proof.Machine

/-! ## Proofs: the timers, the display port and the keypad latch as host commands (60_exceptions.md R250 to R253) -/

namespace Sys2Proof.Machine

/-! ### One timer (R250) -/

theorem countDown_toNat (b : Byte) : (countDown b).toNat = b.toNat - 1 := by
  rw [countDown]
  split_ifs with h
  · rw [h]
    rfl
  · bv_omega

/-- Counting down `n` times stops at 0. -/
theorem countDown_iterate_toNat (n : Nat) (b : Byte) : (countDown^[n] b).toNat = b.toNat - n := by
  induction n with
  | zero => rfl
  | succ n ih => rw [Function.iterate_succ_apply', countDown_toNat, ih, Nat.sub_sub]

/-! ### `tick_timers`, once and many times (R250, R251) -/

/-- `s` after `n` calls of `tick_timers`. -/
def State.countedDown (s : State) (n : Nat) : State := (s.setDt (countDown^[n] s.dt)).setSt (countDown^[n] s.st)

/-- The beep requests of `n` calls of `tick_timers` from ST = `st`: each call sees ST counted down by those before. -/
def beepRequests (st : Byte) (n : Nat) : List Reply :=
  (List.range n).map fun k => .beep (countDown^[k] st == 1)

theorem command_tickTimers (font : Font) (s : State) :
    command font .tickTimers s = .next (s.countedDown 1, .beep (s.st == 1)) := rfl

theorem State.countedDown_succ (s : State) (n : Nat) : s.countedDown (n + 1) = (s.countedDown 1).countedDown n := rfl

theorem beepRequests_succ (st : Byte) (n : Nat) :
    beepRequests st (n + 1) = .beep (st == 1) :: beepRequests (countDown st) n := by
  rw [beepRequests, List.range_succ_eq_map, List.map_cons, List.map_map]
  rfl

/-- R255: a sequence of commands is its first and then the rest. -/
theorem runCommands_cons {font : Font} {c : Command} {cs : List Command} {s t u : State} {reply : Reply}
    {replies : List Reply} (hc : command font c s = .next (t, reply))
    (hcs : runCommands font cs t = .next (u, replies)) :
    runCommands font (c :: cs) s = .next (u, reply :: replies) := by
  simp only [runCommands, hc, hcs]

theorem runCommands_replicate_tickTimers (font : Font) (n : Nat) (s : State) :
    runCommands font (List.replicate n .tickTimers) s = .next (s.countedDown n, beepRequests s.st n) := by
  induction n generalizing s with
  | zero => rfl
  | succ n ih =>
    rw [List.replicate_succ, State.countedDown_succ, beepRequests_succ]
    exact runCommands_cons (command_tickTimers font s) (ih (s.countedDown 1))

/-- The state after `n` calls differs in the timers alone, each at max(0, value - `n`). -/
theorem State.countedDown_spec (s : State) (n : Nat) :
    s.countedDown n = { s with dt := (s.countedDown n).dt, st := (s.countedDown n).st } ∧
      (s.countedDown n).dt.toNat = s.dt.toNat - n ∧ (s.countedDown n).st.toNat = s.st.toNat - n :=
  ⟨rfl, countDown_iterate_toNat n s.dt, countDown_iterate_toNat n s.st⟩

/-- Settles O46: one call, and `n` calls by induction, leave the timers counted down and all else as it was. -/
theorem timersCountDownToZero : Obligations.TimersCountDownToZero := fun font s =>
  ⟨⟨s.countedDown 1, command_tickTimers font s, s.countedDown_spec 1⟩, fun n =>
    ⟨s.countedDown n, beepRequests s.st n, runCommands_replicate_tickTimers font n s, s.countedDown_spec n⟩⟩

/-- The `k`-th count down is the one from 1 to 0 exactly when the timer starts at `k` + 1. -/
theorem countDown_iterate_eq_one_iff (k : Nat) (b : Byte) : countDown^[k] b = 1 ↔ b.toNat = k + 1 := by
  rw [← BitVec.toNat_inj, countDown_iterate_toNat, show (1 : Byte).toNat = 1 from rfl]
  omega

theorem getElem?_beepRequests_eq_true_iff (st : Byte) (n k : Nat) :
    (beepRequests st n)[k]? = some (.beep true) ↔ k < n ∧ st.toNat = k + 1 := by
  rw [beepRequests, List.getElem?_map]
  by_cases hk : k < n
  · simp only [List.getElem?_range hk, Option.map_some, Option.some.injEq, Reply.beep.injEq, beq_iff_eq,
      countDown_iterate_eq_one_iff, hk, true_and]
  · simp [hk]

/-- Settles O47: the replies of the `n` calls are their beep requests, and the `k`-th is one exactly when ST has then
been counted down to 1. -/
theorem oneBeepPerCountdown : Obligations.OneBeepPerCountdown := fun font s n =>
  ⟨s.countedDown n, beepRequests s.st n, runCommands_replicate_tickTimers font n s,
    getElem?_beepRequests_eq_true_iff s.st n⟩

/-! ### `get_display` (R253) -/

theorem Display.cells_eq_flatten (d : Display) : d.cells = d.flatten.toList := by
  calc d.cells = ((d.toArray.map Vector.toArray).toList.map Array.toList).flatten := by
        rw [Array.toList_map, List.map_map]
        rfl
    _ = d.flatten.toList := Array.toList_flatten.symm

theorem Display.length_cells (d : Display) : d.cells.length = 2048 := by
  rw [Display.cells_eq_flatten, Vector.length_toList]

/-- R200: cell (c, r) stands at r * 64 + c. -/
theorem Display.getElem?_cells (d : Display) (c : Col) (r : Row) :
    d.cells[r.val * 64 + c.val]? = some (d.lit c r) := by
  have hrow : (r.val * 64 + c.val) / 64 = r.val := by omega
  have hcol : (r.val * 64 + c.val) % 64 = c.val := by omega
  have hlt : r.val * 64 + c.val < 32 * 64 := by omega
  rw [Display.cells_eq_flatten, Vector.getElem?_toList, Vector.getElem?_eq_getElem hlt, Vector.getElem_flatten]
  simp only [hrow, hcol, Display.lit]

theorem command_getDisplay (font : Font) (s : State) :
    command font .getDisplay s = .next (s, .cells s.display.cells) := rfl

/-- Settles O50: the reply is the framebuffer's rows one after the other, 64 cells each. -/
theorem getDisplayIsRowMajor : Obligations.GetDisplayIsRowMajor := fun font s =>
  ⟨s.display.cells, command_getDisplay font s, s.display.length_cells, s.display.getElem?_cells⟩

/-! ### `keypress` (R247, R252) -/

/-- Write keypad flag `K[k]`. -/
def State.setKey (s : State) (k : Fin 16) (pressed : Bool) : State := { s with keys := s.keys.set k.val pressed }

@[simp] theorem State.key_setKey_self (s : State) (k : Fin 16) (pressed : Bool) :
    (s.setKey k pressed).key k = pressed :=
  Vector.getElem_set_self _

theorem State.key_setKey_of_ne {k j : Fin 16} (h : j ≠ k) (s : State) (pressed : Bool) :
    (s.setKey k pressed).key j = s.key j :=
  Vector.getElem_set_ne k.isLt j.isLt (Fin.val_ne_of_ne h.symm)

theorem command_keypress (font : Font) (k : Fin 16) (pressed : Bool) (s : State) :
    command font (.keypress k.val pressed) s = .next (s.setKey k pressed, .ok) := by
  rw [command, State.keypress, dif_pos k.isLt]
  rfl

theorem command_keypress_of_outOfRange {index : Nat} (h : 15 < index) (font : Font) (pressed : Bool) (s : State) :
    command font (.keypress index pressed) s = .next (s, .keyArgOutOfRange) := by
  rw [command, State.keypress, dif_neg (by omega)]

/-- Settles O49: with an index in range it is one write of a flag, else it is refused. -/
theorem keypressSetsOneFlagOrRefuses : Obligations.KeypressSetsOneFlagOrRefuses :=
  ⟨fun font k pressed s => ⟨s.setKey k pressed, command_keypress font k pressed s, rfl,
      s.key_setKey_self k pressed, fun _ h => State.key_setKey_of_ne h s pressed⟩,
    fun font _ pressed s h => command_keypress_of_outOfRange h font pressed s⟩

end Sys2Proof.Machine

/-! ## Proofs: the load of an image as a host command (70_reset_and_hazards.md R283, R284) -/

namespace Sys2Proof.Machine

/-- R283: the load of an image that fits is one write of its bytes from the entry. -/
theorem command_load {bytes : List Byte} (h : bytes.length ≤ Config.maxImage) (font : Font) (s : State) :
    command font (.load bytes) s = .next (s.setMem (s.mem.writeBytes Config.entry bytes), .ok) := by
  rw [command, State.load, if_pos h]

theorem command_load_of_tooLarge {bytes : List Byte} (h : Config.maxImage < bytes.length) (font : Font) (s : State) :
    command font (.load bytes) s = .next (s, .imageTooLarge) := by
  rw [command, State.load, if_neg (Nat.not_le.mpr h)]

/-- An image that fits ends inside memory. -/
theorem entry_add_le_memSize {n : Nat} (h : n ≤ Config.maxImage) : Config.entry + n ≤ Config.memSize :=
  Nat.add_le_add_left h Config.entry

/-- Settles O48: an image that fits is one write of a block that lies inside memory, else it is refused. -/
theorem loadCopiesTheImageOrRefuses : Obligations.LoadCopiesTheImageOrRefuses := by
  refine ⟨fun font bytes s hwf hlen => ?_, fun font _ s hlen => command_load_of_tooLarge hlen font s⟩
  have hend : Config.entry + bytes.length ≤ Config.memSize := entry_add_le_memSize hlen
  refine ⟨_, command_load hlen font s, rfl, fun k hk => ?_, fun b hb => ?_⟩
  · exact Memory.read_writeBytes_at hwf hend hk
  · exact Memory.read_writeBytes_outside hwf hend hb

end Sys2Proof.Machine

/-! ## Proofs: encoding and decoding are inverse, and the invalid words (30_encoding.md R83 to R91) -/

namespace Sys2Proof

/-- R83: the decoder reads every field of a packed word back, and the field it tests for the row. -/
theorem decode_encode {i : Instr} (h : i.WellFormed) : decode (encode i) = .ok i := by
  cases i with
  | nop | cls | ret => rfl
  | jp nnn | call nnn | ldI nnn | jpV0 nnn => simp [encode, decode]
  | seImm x nn | sneImm x nn | ldImm x nn | addImm x nn | rnd x nn => simp [encode, decode]
  | seReg x y | sneReg x y => simp [encode, decode, decodeRegPair]
  | ldReg x y | or x y | and x y | xor x y | addReg x y | sub x y | shr x y | subn x y | shl x y =>
    simp [encode, decode, decodeMajor8]
  | drw x y n =>
    have hn : n < 16 := of_decide_eq_true h
    simp [encode, decode, Nat.mod_eq_of_lt hn]
  | skp x | sknp x => simp [encode, decode, decodeMajorE]
  | ldVxDt x | ldK x | ldDt x | ldSt x | addI x | ldF x | ldB x | stRegs x | ldRegs x =>
    simp [encode, decode, decodeMajorF]

/-- Settles O2: the fields of the word are the operands, by the laws of packed words. -/
theorem decodeOfEncodeIsIdentity : Obligations.DecodeOfEncodeIsIdentity := fun _ => decode_encode

/-- Settles O3: it is the decoder's law for an answer that is an instruction. -/
theorem encodeOfDecodeIsIdentity : Obligations.EncodeOfDecodeIsIdentity :=
  fun _ _ => wellFormed_and_encode_of_decode

/-! ### The words of each major opcode that are no instruction (R84 to R88) -/

section
variable {w : Word}

theorem decodeMajor0_invalid (hNop : w ≠ 0x0000) (hCls : w ≠ 0x00E0) (hRet : w ≠ 0x00EE) :
    decodeMajor0 w = .error (.invalid w) := by
  rw [decodeMajor0, if_neg hNop, if_neg hCls, if_neg hRet]

theorem decodeRegPair_invalid (hN : fieldN w ≠ 0x0) (i : Instr) : decodeRegPair w i = .error (.invalid w) := by
  rw [decodeRegPair, if_neg hN]

theorem decodeMajor8_invalid (hN : fieldN w ∈ [0x8, 0x9, 0xA, 0xB, 0xC, 0xD, 0xF]) :
    decodeMajor8 w = .error (.invalid w) := by
  simp only [List.mem_cons, List.not_mem_nil, or_false] at hN
  rw [decodeMajor8]
  rcases hN with hN | hN | hN | hN | hN | hN | hN <;> rw [hN] <;> rfl

theorem decodeMajorE_invalid (hSkp : fieldNN w ≠ 0x9E) (hSknp : fieldNN w ≠ 0xA1) :
    decodeMajorE w = .error (.invalid w) := by
  unfold decodeMajorE
  split
  · exact absurd (BitVec.eq_of_toNat_eq ‹_›) hSkp
  · exact absurd (BitVec.eq_of_toNat_eq ‹_›) hSknp
  · rfl

/-- The value of nn in an arm of `decodeMajorF` would be one of the nine. -/
theorem decodeMajorF_invalid
    (hNN : fieldNN w ∉ [0x07, 0x0A, 0x15, 0x18, 0x1E, 0x29, 0x33, 0x55, 0x65]) :
    decodeMajorF w = .error (.invalid w) := by
  unfold decodeMajorF
  split
  case h_10 => rfl
  all_goals
    rename_i h
    simp [← BitVec.toNat_inj, h] at hNN

end

/-- Settles O5: each major opcode's own decoder refuses the words that are none of its instructions. -/
theorem invalidWordsPerMajor : Obligations.InvalidWordsPerMajor := by
  intro w
  refine ⟨fun hO hNop hCls hRet => ?_, fun hO hN => ?_, fun hO hN => ?_, fun hO hSkp hSknp => ?_, fun hO hNN => ?_⟩
  · rw [decode, hO]
    exact decodeMajor0_invalid hNop hCls hRet
  · rcases hO with hO | hO
    · rw [decode, hO]
      exact decodeRegPair_invalid hN _
    · rw [decode, hO]
      exact decodeRegPair_invalid hN _
  · rw [decode, hO]
    exact decodeMajor8_invalid hN
  · rw [decode, hO]
    exact decodeMajorE_invalid hSkp hSknp
  · rw [decode, hO]
    exact decodeMajorF_invalid hNN

/-- Settles O6: the decoder computes on the ten words. -/
theorem sampleWordsDecode : Obligations.SampleWordsDecode :=
  ⟨rfl, rfl, rfl, rfl, rfl, rfl, rfl, rfl, rfl, rfl⟩

end Sys2Proof

/-! ## Proofs: control flow and the random byte (41_flow.md R120 to R128, 42_alu.md R168) -/

namespace Sys2Proof.Machine

/-! ### The rows of NOP, RET, JP, CALL, JP V0 and RND (R83) -/

theorem decodes_nop : Decodes 0xFFFF 0x0000 fun _ => .nop := by
  intro w h
  rw [eq_of_and_FFFF h]
  rfl

theorem decodes_ret : Decodes 0xFFFF 0x00EE fun _ => .ret := by
  intro w h
  rw [eq_of_and_FFFF h]
  rfl

theorem decodes_jp : Decodes 0xF000 0x1000 fun w => .jp (fieldNNN w) := by
  intro w h
  rw [decode, fieldO_of_and_F000 h]
  rfl

theorem decodes_call : Decodes 0xF000 0x2000 fun w => .call (fieldNNN w) := by
  intro w h
  rw [decode, fieldO_of_and_F000 h]
  rfl

theorem decodes_jpV0 : Decodes 0xF000 0xB000 fun w => .jpV0 (fieldNNN w) := by
  intro w h
  rw [decode, fieldO_of_and_F000 h]
  rfl

theorem decodes_rnd : Decodes 0xF000 0xC000 fun w => .rnd (fieldX w) (fieldNN w) := by
  intro w h
  rw [decode, fieldO_of_and_F000 h]
  rfl

/-! ### NOP, JP and JP V0 (R120, R122, R128) -/

section
variable (nnn : Addr12) (s : State)

theorem exec_nop : exec .nop s = .next s := rfl

theorem exec_jp : exec (.jp nnn) s = .next (s.setPc (zextAddr nnn)) := rfl

theorem exec_jpV0 : exec (.jpV0 nnn) s = .next (s.setPc (zextByte (s.getV 0) + zextAddr nnn)) := rfl

end

/-- Settles O23: NOP is no write at all, and each jump is one write of pc. -/
theorem nopAndJumpsSetPc : Obligations.NopAndJumpsSetPc :=
  ⟨decodes_nop, decodes_jp, decodes_jpV0, fun nnn s => ⟨exec_nop s, ⟨_, exec_jp nnn s, rfl, zextAddr_toNat nnn⟩,
    ⟨_, exec_jpV0 nnn s, rfl, zextByte_add_zextAddr_toNat _ nnn⟩⟩⟩

/-! ### RET and CALL (R121, R123) -/

section
variable {s : State}

theorem exec_ret_pop {k : Fin 16} (h : s.sp.toNat = k.val + 1) : exec .ret s = .next (s.popPc k) := execRet_pop h

theorem exec_ret_underflow (h : s.sp = 0) :
    exec .ret s = .next (s.faulted .stackUnderflow (encode .ret) none none) := execRet_underflow h

theorem exec_call_push {k : Fin 16} (h : s.sp.toNat = k.val) (nnn : Addr12) :
    exec (.call nnn) s = .next ((s.push k s.pc).setPc (zextAddr nnn)) := execCall_push h nnn

theorem exec_call_overflow (h : s.sp = 16) (nnn : Addr12) :
    exec (.call nnn) s = .next (s.faulted .stackOverflow (encode (.call nnn)) none none) := execCall_overflow h nnn

theorem State.sp_popPc_toNat {k : Fin 16} (h : s.sp.toNat = k.val + 1) : (s.popPc k).sp.toNat = k.val := by
  rw [State.popPc_sp]
  bv_omega

theorem State.sp_push_toNat {k : Fin 16} (h : s.sp.toNat = k.val) (w : Word) :
    (s.push k w).sp.toNat = k.val + 1 := by
  rw [State.push_sp]
  bv_omega

theorem exec_ret_of_sp_illegal (h : 16 < s.sp.toNat) : exec .ret s = .fault .stackPointerIllegal := by
  have hne : s.sp ≠ 0 := by bv_omega
  rw [exec, execRet, if_neg hne, dif_neg (by omega)]

theorem exec_call_of_sp_illegal (h : 16 < s.sp.toNat) (nnn : Addr12) :
    exec (.call nnn) s = .fault .stackPointerIllegal := by
  have hne : s.sp ≠ 16 := by bv_omega
  rw [exec, execCall, if_neg hne, dif_neg (by omega)]

end

/-- Settles O24: with a slot to take, RET is one pop, and with none it raises the fault. -/
theorem retPopsPcOrUnderflows : Obligations.RetPopsPcOrUnderflows :=
  ⟨decodes_ret, fun _ _ h => ⟨_, exec_ret_pop h, rfl, State.sp_popPc_toNat h, rfl⟩,
    fun _ h => exec_ret_underflow h⟩

/-- Settles O25: with a slot left, CALL is one push and one write of pc, and with none it raises the fault. -/
theorem callPushesPcOrOverflows : Obligations.CallPushesPcOrOverflows := by
  refine ⟨decodes_call, fun nnn s k h => ?_, fun nnn s h => exec_call_overflow h nnn⟩
  refine ⟨_, exec_call_push h nnn, rfl, s.slot_push_self k s.pc, fun j hj => ?_, State.sp_push_toNat h s.pc,
    zextAddr_toNat nnn⟩
  exact (s.slot_push k j s.pc).trans (if_neg hj)

/-- Settles O26: neither the fault's test nor a slot number fits an SP above 16. -/
theorem callAndRetStopOnUnreachableSp : Obligations.CallAndRetStopOnUnreachableSp :=
  fun nnn _ h => ⟨exec_ret_of_sp_illegal h, exec_call_of_sp_illegal h nnn⟩

/-- Settles O27: the return pops the slot the call has pushed the address after it to. -/
theorem callThenRetResumesAfterTheCall : Obligations.CallThenRetResumesAfterTheCall := by
  intro nnn s hsp
  obtain ⟨k, hk⟩ : ∃ k : Fin 16, s.sp.toNat = k.val := ⟨⟨_, hsp⟩, rfl⟩
  refine ⟨_, exec_call_push hk nnn, fun u husp huslot => ?_⟩
  have hu : u.sp.toNat = k.val + 1 := (congrArg BitVec.toNat husp).trans (State.sp_push_toNat hk s.pc)
  refine ⟨_, exec_ret_pop hu, ?_, ?_⟩
  · exact (huslot k).trans (s.slot_push_self k s.pc)
  · exact BitVec.eq_of_toNat_eq ((State.sp_popPc_toNat hu).trans hk.symm)

/-! ### RND (R168) -/

theorem exec_rnd (x : RegIx) (nn : Byte) (s : State) :
    exec (.rnd x nn) s = .next (s.countDraw.setV x (Config.draw s.draws &&& nn)) := rfl

theorem getLsbD_and_of_mask {nn : Byte} {b : Nat} (h : nn.getLsbD b = false) (r : Byte) :
    (r &&& nn).getLsbD b = false := by
  rw [BitVec.getLsbD_and, h, Bool.and_false]

/-- Settles O34: it is one register write of the masked draw, after the draw is counted. -/
theorem randomByteIsMasked : Obligations.RandomByteIsMasked := by
  refine ⟨decodes_rnd, fun x nn s => ⟨_, exec_rnd x nn s, rfl, ?_, fun b hb => ?_, fun k hk => ?_⟩⟩
  · exact State.getV_setV_self _ x _
  · rw [State.getV_setV_self]
    exact getLsbD_and_of_mask hb _
  · exact State.getV_setV_of_ne _ hk _

end Sys2Proof.Machine

/-! ## Proofs: what a meaning can do, said once for all instructions (40_cycle.md R103, R104) -/

namespace Sys2Proof.Machine

/-- What instruction `i` does to `s`, the state the fetch left, when it answers a next state: one shape of update for
each group of instructions, or a fault with its cause. -/
inductive Effect (s : State) : Instr → State → Prop
  | nop : Effect s .nop s
  | jump (i : Instr) (w : Word) : i.row.mnemonic ∈ ["JP", "JP_V0"] → w.toNat ≤ 0x10FE → Effect s i (s.setPc w)
  | skip (i : Instr) (c : Bool) : i.row.mnemonic ∈ ["SE_IMM", "SNE_IMM", "SE_REG", "SNE_REG", "SKP", "SKNP"] →
      Effect s i (s.skipIf c)
  | wait (x : RegIx) : Effect s (.ldK x) s.tickStart
  | pop (k : Fin 16) : s.sp.toNat = k.val + 1 → Effect s .ret (s.popPc k)
  | push (nnn : Addr12) (k : Fin 16) : s.sp.toNat = k.val →
      Effect s (.call nnn) ((s.push k s.pc).setPc (zextAddr nnn))
  | setV (i : Instr) (x : RegIx) (b : Byte) : fieldX (encode i) = x →
      i.row.mnemonic ∈ ["LD_IMM", "ADD_IMM", "LD_REG", "OR", "AND", "XOR", "LD_VX_DT", "LD_K"] →
      Effect s i (s.setV x b)
  | rnd (x : RegIx) (nn b : Byte) : Effect s (.rnd x nn) (s.countDraw.setV x b)
  | resultThenFlag (i : Instr) (x : RegIx) (r : Byte × Byte) : fieldX (encode i) = x →
      i.row.mnemonic ∈ ["ADD_REG", "SUB", "SUBN"] → Effect s i (s.setResultThenFlag x r)
  | flagThenShift (i : Instr) (x : RegIx) (flag : Byte) (shift : Byte → Byte) : fieldX (encode i) = x →
      i.row.mnemonic ∈ ["SHR", "SHL"] → Effect s i (s.setFlagThenShift x flag shift)
  | setI (i : Instr) (w : Word) : i.row.mnemonic ∈ ["LD_I", "ADD_I", "LD_F"] → Effect s i (s.setI w)
  | setDt (x : RegIx) : Effect s (.ldDt x) (s.setDt (s.getV x))
  | setSt (x : RegIx) : Effect s (.ldSt x) (s.setSt (s.getV x))
  | cls : Effect s .cls (s.setDisplay Display.clear)
  | draw (x y : RegIx) (n : Nat) : Effect s (.drw x y n) (s.drawSprite x y n)
  | store (i : Instr) (bs : List Byte) : i.row.mnemonic ∈ ["LD_B", "ST_REGS"] → Effect s i (s.storeAtI bs)
  | load (x : RegIx) : Effect s (.ldRegs x) (s.setVs (s.mem.readBytes s.i.toNat (x.val + 1)))
  | fault {i : Instr} {code : FaultCode} {addr : Option Nat} {value : Option Byte} :
      FaultCause s i code addr value → Effect s i (s.faulted code (encode i) addr value)

/-! ### The instructions with a fault branch -/

section
variable (s : State)

theorem exec_ret_effect (hsp : s.sp.toNat ≤ 16) : ∃ t, exec .ret s = .next t ∧ Effect s .ret t := by
  by_cases h0 : s.sp = 0
  · exact ⟨_, exec_ret_underflow h0, .fault (.underflow h0)⟩
  · have hk : s.sp.toNat = (⟨s.sp.toNat - 1, by omega⟩ : Fin 16).val + 1 := by
      show s.sp.toNat = s.sp.toNat - 1 + 1
      bv_omega
    exact ⟨_, exec_ret_pop hk, .pop _ hk⟩

theorem exec_call_effect (nnn : Addr12) (hsp : s.sp.toNat ≤ 16) :
    ∃ t, exec (.call nnn) s = .next t ∧ Effect s (.call nnn) t := by
  by_cases h16 : s.sp = 16
  · exact ⟨_, exec_call_overflow h16 nnn, .fault (.overflow nnn h16)⟩
  · have hk : s.sp.toNat = (⟨s.sp.toNat, by bv_omega⟩ : Fin 16).val := rfl
    exact ⟨_, exec_call_push hk nnn, .push nnn _ hk⟩

/-- A block access in range has the effect it was given; else it faults, for the cause that goes with its block. -/
theorem withBlock_effect {s : State} {i : Instr} {n : Nat} {k : State} (hk : Effect s i k)
    (hcause : 0 < n → Config.memSize < s.i.toNat + n →
      FaultCause s i .memoryOutOfRange (some (max s.i.toNat Config.memSize)) none) :
    ∃ t, withBlock i n s k = .next t ∧ Effect s i t := by
  obtain ⟨-, hr⟩ | ⟨-, hn, hr⟩ := s.blockFault_cases n
  · exact ⟨k, withBlock_inRange hr i k, hk⟩
  · exact ⟨_, withBlock_outOfRange hn hr i k, .fault (hcause hn hr)⟩

theorem exec_skp_effect (x : RegIx) : ∃ t, exec (.skp x) s = .next t ∧ Effect s (.skp x) t := by
  by_cases hx : 15 < (s.getV x).toNat
  · exact ⟨_, exec_skp_of_key_outOfRange hx, .fault (.skp x hx)⟩
  · have hk : (s.getV x).toNat = (⟨(s.getV x).toNat, by omega⟩ : Fin 16).val := rfl
    rw [exec_skp_of_key hk, ← State.skipIf_eq]
    exact ⟨_, rfl, .skip _ _ (by simp [Instr.row])⟩

theorem exec_sknp_effect (x : RegIx) : ∃ t, exec (.sknp x) s = .next t ∧ Effect s (.sknp x) t := by
  by_cases hx : 15 < (s.getV x).toNat
  · exact ⟨_, exec_sknp_of_key_outOfRange hx, .fault (.sknp x hx)⟩
  · have hk : (s.getV x).toNat = (⟨(s.getV x).toNat, by omega⟩ : Fin 16).val := rfl
    rw [exec_sknp_of_key hk, ← State.skipIf_not]
    exact ⟨_, rfl, .skip _ _ (by simp [Instr.row])⟩

theorem exec_ldK_effect (x : RegIx) : ∃ t, exec (.ldK x) s = .next t ∧ Effect s (.ldK x) t := by
  rw [exec, execLdK]
  split
  · exact ⟨_, rfl, .setV _ x _ (fieldX_packXNN 0xF x 0x0A) (by simp [Instr.row])⟩
  · exact ⟨_, rfl, .wait x⟩

end

/-- The case split is over the 35 instructions; only CALL and RET need SP to be legal. -/
theorem exec_effect {i : Instr} {s : State} (hsp : i.row.mnemonic ∈ ["CALL", "RET"] → s.sp.toNat ≤ 16) :
    ∃ t, exec i s = .next t ∧ Effect s i t := by
  cases i with
  | nop => exact ⟨_, rfl, .nop⟩
  | cls => exact ⟨_, rfl, .cls⟩
  | ret => exact exec_ret_effect s (hsp (by simp [Instr.row]))
  | jp nnn => exact ⟨_, rfl, .jump _ _ (by simp [Instr.row]) (by rw [zextAddr_toNat]; omega)⟩
  | call nnn => exact exec_call_effect s nnn (hsp (by simp [Instr.row]))
  | jpV0 nnn => exact ⟨_, rfl, .jump _ _ (by simp [Instr.row]) (by rw [zextByte_add_zextAddr_toNat]; omega)⟩
  | seImm | sneImm | seReg | sneReg => exact ⟨_, rfl, .skip _ _ (by simp [Instr.row])⟩
  | ldImm | addImm | ldVxDt => exact ⟨_, rfl, .setV _ _ _ (fieldX_packXNN _ _ _) (by simp [Instr.row])⟩
  | ldReg | or | and | xor => exact ⟨_, rfl, .setV _ _ _ (fieldX_packXYN _ _ _ _) (by simp [Instr.row])⟩
  | addReg | sub | subn => exact ⟨_, rfl, .resultThenFlag _ _ _ (fieldX_packXYN _ _ _ _) (by simp [Instr.row])⟩
  | shr x y => exact ⟨_, exec_shr x y s, .flagThenShift _ x _ _ (fieldX_packXYN _ x y _) (by simp [Instr.row])⟩
  | shl x y => exact ⟨_, exec_shl x y s, .flagThenShift _ x _ _ (fieldX_packXYN _ x y _) (by simp [Instr.row])⟩
  | ldI | addI | ldF => exact ⟨_, rfl, .setI _ _ (by simp [Instr.row])⟩
  | rnd x nn => exact ⟨_, rfl, .rnd x nn _⟩
  | drw x y n => exact withBlock_effect (.draw x y n) (.drw x y n)
  | skp x => exact exec_skp_effect s x
  | sknp x => exact exec_sknp_effect s x
  | ldK x => exact exec_ldK_effect s x
  | ldDt x => exact ⟨_, rfl, .setDt x⟩
  | ldSt x => exact ⟨_, rfl, .setSt x⟩
  | ldB x => exact withBlock_effect (.store _ _ (by simp [Instr.row])) fun _ => .ldB x
  | stRegs x => exact withBlock_effect (.store _ _ (by simp [Instr.row])) fun _ => .stRegs x
  | ldRegs x => exact withBlock_effect (.load x) fun _ => .ldRegs x

theorem exec_of_sp_illegal {i : Instr} {s : State} (hi : i.row.mnemonic ∈ ["CALL", "RET"]) (hsp : 16 < s.sp.toNat) :
    exec i s = .fault .stackPointerIllegal := by
  cases i with
  | ret => exact exec_ret_of_sp_illegal hsp
  | call nnn => exact exec_call_of_sp_illegal hsp nnn
  | _ => simp [Instr.row] at hi

/-- An instruction that answers a next state has had its effect: CALL and RET stop where SP is not legal. -/
theorem effect_of_exec {i : Instr} {s t : State} (h : exec i s = .next t) : Effect s i t := by
  have hsp (hi : i.row.mnemonic ∈ ["CALL", "RET"]) : s.sp.toNat ≤ 16 := by
    by_contra hsp
    rw [exec_of_sp_illegal hi (Nat.lt_of_not_le hsp)] at h
    cases h
  obtain ⟨t', hexec, heffect⟩ := exec_effect hsp
  rw [hexec] at h
  cases h
  exact heffect

end Sys2Proof.Machine

/-! ## Proofs: who writes what (10_state.md R20 to R35), and the frames of the instructions -/

namespace Sys2Proof.Machine

/-! ### The writers of the elements that several instructions write (R20, R22, R24, R35) -/

/-- The instructions that can fault (60_exceptions.md R242). -/
def faulters : List String := ["CALL", "RET", "DRW", "LD_B", "ST_REGS", "LD_REGS", "SKP", "SKNP"]

/-- The writers of pc, past the fetch's own advance and the fault that undoes it. -/
def pcWriters : List String :=
  ["SE_IMM", "SNE_IMM", "SE_REG", "SNE_REG", "SKP", "SKNP", "RET", "JP", "CALL", "JP_V0", "LD_K"]

/-- The writers of VF as a flag. -/
def flagWriters : List String := ["ADD_REG", "SUB", "SHR", "SUBN", "SHL", "DRW"]

/-- The writers of one register, V[x], as their destination. -/
def destinationWriters : List String :=
  ["LD_IMM", "ADD_IMM", "LD_REG", "OR", "AND", "XOR", "ADD_REG", "SUB", "SHR", "SUBN", "SHL", "RND", "LD_VX_DT",
    "LD_K"]

/-- Instruction `i` may write V[k]: as its flag, as its destination, or as one of the registers it loads. -/
def WritesReg (i : Instr) (k : RegIx) : Prop :=
  (k = 15 ∧ i.row.mnemonic ∈ flagWriters) ∨ (k = fieldX (encode i) ∧ i.row.mnemonic ∈ destinationWriters) ∨
    (k ≤ fieldX (encode i) ∧ i.row.mnemonic = "LD_REGS")

/-- `t` is what a fault of instruction `i` leaves of `s`, and `i` is one of those that can fault. -/
def FaultsByTable (i : Instr) (s t : State) : Prop := i.row.mnemonic ∈ faulters ∧ FaultsTo i s t

/-- The elements of `t` that instruction `i` is no writer of are those of `s`. A clause left out in a proof of this
is one that holds by definition, the update being of other elements. -/
structure WritesOnlyItsOwn (i : Instr) (s t : State) : Prop where
  keys : t.keys = s.keys := by rfl
  dt : i.row.mnemonic ∉ ["LD_DT"] → t.dt = s.dt := by intros; rfl
  st : i.row.mnemonic ∉ ["LD_ST"] → t.st = s.st := by intros; rfl
  index : i.row.mnemonic ∉ ["LD_I", "ADD_I", "LD_F"] → t.i = s.i := by intros; rfl
  slot : ∀ k : Fin 16, i.row.mnemonic ∉ ["CALL"] ∨ s.sp.toNat ≠ k.val → t.slot k = s.slot k := by intros; rfl
  sp : i.row.mnemonic ∉ ["CALL", "RET"] → t.sp = s.sp := by intros; rfl
  display : i.row.mnemonic ∉ ["CLS", "DRW"] → t.display = s.display := by intros; rfl
  mem : i.row.mnemonic ∉ ["LD_B", "ST_REGS"] → t.mem = s.mem := by intros; rfl
  regs : KeepsRegsBut (WritesReg i) s t := by intros _ _; rfl
  pc : i.row.mnemonic ∈ pcWriters ∨ FaultsByTable i s t ∨ t.pc = s.pc := by exact .inr (.inr rfl)
  fault : FaultsByTable i s t ∨ t.fault = s.fault := by exact .inr rfl
  draws : i.row.mnemonic ∉ ["RND"] → t.draws = s.draws := by intros; rfl

theorem FaultCause.mnemonic_mem_faulters {s : State} {i : Instr} {code : FaultCode} {addr : Option Nat}
    {value : Option Byte} (h : FaultCause s i code addr value) : i.row.mnemonic ∈ faulters := by
  cases h <;> simp [Instr.row, faulters]

/-! ### The registers that each shape of update may write -/

section
variable {i : Instr} {x : RegIx} (s : State)

theorem State.setV_keepsRegsBut (hx : WritesReg i x) (b : Byte) : KeepsRegsBut (WritesReg i) s (s.setV x b) :=
  by
  intro k hk
  have hkx : k ≠ x := by
    rintro rfl
    exact hk hx
  exact s.getV_setV_of_ne hkx b

theorem State.setResultThenFlag_keepsRegsBut (hx : WritesReg i x) (hvf : WritesReg i vf) (r : Byte × Byte) :
    KeepsRegsBut (WritesReg i) s (s.setResultThenFlag x r) :=
  fun _ hk => s.getV_setResultThenFlag_of_ne r (fun hkx => hk (hkx.symm ▸ hx)) fun hkvf => hk (hkvf.symm ▸ hvf)

theorem State.setFlagThenShift_keepsRegsBut (hx : WritesReg i x) (hvf : WritesReg i vf) (flag : Byte)
    (shift : Byte → Byte) : KeepsRegsBut (WritesReg i) s (s.setFlagThenShift x flag shift) :=
  fun _ hk => s.getV_setFlagThenShift_of_ne flag shift (fun hkx => hk (hkx.symm ▸ hx))
    fun hkvf => hk (hkvf.symm ▸ hvf)

theorem State.drawSprite_keepsRegsBut (hvf : WritesReg i vf) (x y : RegIx) (n : Nat) :
    KeepsRegsBut (WritesReg i) s (s.drawSprite x y n) :=
  fun _ hk => s.getV_drawSprite_of_ne x y n fun hkvf => hk (hkvf.symm ▸ hvf)

theorem State.setVs_readBytes_keepsRegsBut (hle : ∀ k ≤ x, WritesReg i k) (a : Nat) :
    KeepsRegsBut (WritesReg i) s (s.setVs (s.mem.readBytes a (x.val + 1))) := by
  intro k hk
  rw [State.getV_setVs_readBytes s a x.isLt, if_neg fun hkx => hk (hle k (Nat.le_of_lt_succ hkx))]

end

/-- Each shape of update leaves all alone but the elements that its instructions are writers of. -/
theorem Effect.writesOnlyItsOwn {i : Instr} {s t : State} (h : Effect s i t) : WritesOnlyItsOwn i s t := by
  cases h with
  | nop => exact {}
  | jump i w hi =>
    have hpc : ["JP", "JP_V0"] ⊆ pcWriters := by decide
    exact { pc := .inl (hpc hi) }
  | skip i c hi =>
    have hpc : ["SE_IMM", "SNE_IMM", "SE_REG", "SNE_REG", "SKP", "SKNP"] ⊆ pcWriters := by decide
    rw [State.skipIf_eq]
    exact { pc := .inl (hpc hi) }
  | wait x => exact { pc := .inl (by simp [Instr.row, pcWriters]) }
  | pop k => exact { sp := fun h => absurd (by simp [Instr.row]) h, pc := .inl (by simp [Instr.row, pcWriters]) }
  | push nnn k hk =>
    have hslot (j : Fin 16) (hj : (Instr.call nnn).row.mnemonic ∉ ["CALL"] ∨ s.sp.toNat ≠ j.val) : j ≠ k := by
      rintro rfl
      exact hj.elim (absurd (List.mem_singleton_self _)) (absurd hk)
    exact {
      slot := fun j hj => (s.slot_push k j s.pc).trans (if_neg (hslot j hj))
      sp := fun h => absurd (by simp [Instr.row]) h
      pc := .inl (by simp [Instr.row, pcWriters]) }
  | setV i x b hx hi =>
    have hdest : ["LD_IMM", "ADD_IMM", "LD_REG", "OR", "AND", "XOR", "LD_VX_DT", "LD_K"] ⊆ destinationWriters := by
      decide
    exact { regs := s.setV_keepsRegsBut (.inr (.inl ⟨hx.symm, hdest hi⟩)) b }
  | rnd x nn b =>
    have hx : x = fieldX (encode (.rnd x nn)) := (fieldX_packXNN _ x nn).symm
    exact {
      regs := s.countDraw.setV_keepsRegsBut (.inr (.inl ⟨hx, by simp [Instr.row, destinationWriters]⟩)) b
      draws := fun h => absurd (List.mem_singleton_self _) h }
  | resultThenFlag i x r hx hi =>
    have hdest : ["ADD_REG", "SUB", "SUBN"] ⊆ destinationWriters := by decide
    have hflag : ["ADD_REG", "SUB", "SUBN"] ⊆ flagWriters := by decide
    exact { regs := s.setResultThenFlag_keepsRegsBut (.inr (.inl ⟨hx.symm, hdest hi⟩)) (.inl ⟨rfl, hflag hi⟩) r }
  | flagThenShift i x flag shift hx hi =>
    have hdest : ["SHR", "SHL"] ⊆ destinationWriters := by decide
    have hflag : ["SHR", "SHL"] ⊆ flagWriters := by decide
    exact { regs := s.setFlagThenShift_keepsRegsBut (.inr (.inl ⟨hx.symm, hdest hi⟩)) (.inl ⟨rfl, hflag hi⟩)
              flag shift }
  | setI i w hi => exact { index := fun h => absurd hi h }
  | setDt x => exact { dt := fun h => absurd (List.mem_singleton_self _) h }
  | setSt x => exact { st := fun h => absurd (List.mem_singleton_self _) h }
  | cls => exact { display := fun h => absurd (by simp [Instr.row]) h }
  | draw x y n =>
    exact {
      display := fun h => absurd (by simp [Instr.row]) h
      regs := s.drawSprite_keepsRegsBut (.inl ⟨rfl, by simp [Instr.row, flagWriters]⟩) x y n }
  | store i bs hi => exact { mem := fun h => absurd hi h }
  | load x =>
    have hx : fieldX (encode (.ldRegs x)) = x := fieldX_packXNN _ x _
    exact { regs := s.setVs_readBytes_keepsRegsBut (fun k hk => .inr (.inr ⟨hx.symm ▸ hk, rfl⟩)) _ }
  | @fault _ code addr value hcause =>
    have hfaults : FaultsByTable i s _ := ⟨hcause.mnemonic_mem_faulters, code, addr, value, rfl⟩
    exact { pc := .inr (.inl hfaults), fault := .inl hfaults }

theorem writesOnlyItsOwn_of_exec {i : Instr} {s t : State} (h : exec i s = .next t) : WritesOnlyItsOwn i s t :=
  (effect_of_exec h).writesOnlyItsOwn

/-- The writers of some register. -/
def registerWriters : List String := flagWriters ++ destinationWriters ++ ["LD_REGS"]

/-- A mnemonic of one list is none of another, for two lists with no mnemonic in common. -/
theorem not_mem_of_mem {l l' : List String} {m : String} (hm : m ∈ l) (hdisjoint : ∀ a ∈ l, a ∉ l' := by decide) :
    m ∉ l' :=
  hdisjoint m hm

namespace WritesOnlyItsOwn

variable {i : Instr} {s t : State} (h : WritesOnlyItsOwn i s t)

include h

theorem stack (hi : i.row.mnemonic ∉ ["CALL"]) : t.stack = s.stack :=
  Vector.ext fun k hk => h.slot ⟨k, hk⟩ (.inl hi)

theorem keepsStack (hi : i.row.mnemonic ∉ ["CALL", "RET"]) : KeepsStack s t :=
  ⟨h.sp hi, fun k => h.slot k (.inl fun hcall => hi (List.mem_append_left ["RET"] hcall))⟩

theorem keepsTimers (hi : i.row.mnemonic ∉ ["LD_DT", "LD_ST"]) : KeepsTimers s t :=
  ⟨h.dt fun hdt => hi (List.mem_append_left ["LD_ST"] hdt), h.st fun hst => hi (List.mem_cons_of_mem _ hst)⟩

theorem keepsKeys : KeepsKeys s t := fun k => by rw [State.key, State.key, h.keys]

theorem keepsDisplay (hi : i.row.mnemonic ∉ ["CLS", "DRW"]) : KeepsDisplay s t := fun c r => by rw [h.display hi]

theorem keepsMemory (hi : i.row.mnemonic ∉ ["LD_B", "ST_REGS"]) : KeepsMemory s t := fun a => by rw [h.mem hi]

theorem keepsRegsBut {P : RegIx → Prop} (hP : ∀ k, WritesReg i k → P k) : KeepsRegsBut P s t :=
  fun k hk => h.regs k fun hw => hk (hP k hw)

theorem keepsRegs (hi : i.row.mnemonic ∉ registerWriters) : KeepsRegs s t := by
  simp only [registerWriters, List.mem_append, not_or, List.mem_singleton] at hi
  obtain ⟨⟨hflag, hdest⟩, hload⟩ := hi
  refine fun k => h.regs k ?_
  rintro (⟨-, hi⟩ | ⟨-, hi⟩ | ⟨-, hi⟩)
  · exact hflag hi
  · exact hdest hi
  · exact hload hi

theorem pc_eq (hpc : i.row.mnemonic ∉ pcWriters) (hfault : i.row.mnemonic ∉ faulters) : t.pc = s.pc := by
  obtain hi | ⟨hi, -⟩ | heq := h.pc
  · exact absurd hi hpc
  · exact absurd hi hfault
  · exact heq

theorem fault_eq (hfault : i.row.mnemonic ∉ faulters) : t.fault = s.fault :=
  h.fault.resolve_left fun hi => hfault hi.1

end WritesOnlyItsOwn

/-! ### What a tick writes (R290, R35) -/

theorem exists_eq_ldDt_of_mnemonic {i : Instr} (hi : i.row.mnemonic ∈ ["LD_DT"]) : ∃ x, i = .ldDt x := by
  cases i with
  | ldDt x => exact ⟨x, rfl⟩
  | _ => simp [Instr.row] at hi

theorem exists_eq_ldSt_of_mnemonic {i : Instr} (hi : i.row.mnemonic ∈ ["LD_ST"]) : ∃ x, i = .ldSt x := by
  cases i with
  | ldSt x => exact ⟨x, rfl⟩
  | _ => simp [Instr.row] at hi

/-- A tick writes FAULT only with none latched before, and then it has only committed the record. -/
theorem eq_commitFault_of_step_of_fault_ne {s t : State} (h : step s = .next t) (hne : t.fault ≠ s.fault) :
    s.fault = none ∧ ∃ r, t = s.commitFault r := by
  cases hs : s.fault with
  | some r =>
    rw [step_of_fault hs] at h
    cases h
    exact absurd rfl hne
  | none =>
    rw [hs] at hne
    obtain ⟨r, hr⟩ := Option.ne_none_iff_exists'.mp hne
    exact ⟨rfl, r, eq_commitFault_of_step hs h hr⟩

/-- Settles O52: each clause says that the element is kept by every instruction that is no writer of it; and a tick
that writes FAULT has only committed a record. -/
theorem elementsHaveOnlyTheirWriters : Obligations.ElementsHaveOnlyTheirWriters := by
  refine ⟨fun i s t h => ?_, fun s t => eq_commitFault_of_step_of_fault_ne⟩
  have hw := writesOnlyItsOwn_of_exec h
  refine ⟨hw.keys, fun hne => ?_, fun hne => ?_, not_imp_comm.mp hw.index, fun hne => ?_, not_imp_comm.mp hw.sp,
    not_imp_comm.mp hw.display, not_imp_comm.mp hw.mem, fun k => not_imp_comm.mp (hw.regs k), fun hne => ?_,
    hw.fault.resolve_right, fun hne => ?_⟩
  · exact List.mem_singleton.mp (not_imp_comm.mp hw.dt hne)
  · exact List.mem_singleton.mp (not_imp_comm.mp hw.st hne)
  · exact List.mem_singleton.mp (not_imp_comm.mp hw.stack hne)
  · obtain hwriter | ⟨-, hfaults⟩ | heq := hw.pc
    · exact .inl hwriter
    · exact .inr hfaults
    · exact absurd heq hne
  · exact List.mem_singleton.mp (not_imp_comm.mp hw.draws hne)

/-- Settles O53: a tick that runs no instruction has at most committed a record, and of the instructions only Fx15
and Fx18 write a timer and none the keypad. -/
theorem ticksMoveNoTimerAndNoKey : Obligations.TicksMoveNoTimerAndNoKey := by
  intro s t h
  obtain ⟨-, -, rfl⟩ | ⟨-, -, -, rfl⟩ | ⟨-, i, hd, hexec⟩ := step_cases h
  · exact ⟨rfl, absurd rfl, absurd rfl⟩
  · exact ⟨rfl, absurd rfl, absurd rfl⟩
  · have hw := writesOnlyItsOwn_of_exec hexec
    obtain ⟨-, hword⟩ := State.fetchDecode_ok.mp hd
    refine ⟨hw.keys, fun hne => ?_, fun hne => ?_⟩
    · obtain ⟨x, rfl⟩ := exists_eq_ldDt_of_mnemonic (not_imp_comm.mp hw.dt hne)
      exact ⟨x, hword⟩
    · obtain ⟨x, rfl⟩ := exists_eq_ldSt_of_mnemonic (not_imp_comm.mp hw.st hne)
      exact ⟨x, hword⟩

/-! ### The frames: no instruction of a group is a writer of what the group keeps -/

/-- Settles O54: of the elements the statement names, none is written by an instruction of the group, whose one
element is pc. -/
theorem frameOfJumpsAndSkips : Obligations.FrameOfJumpsAndSkips := by
  intro i s t hi h
  have hw := writesOnlyItsOwn_of_exec h
  exact ⟨hw.keepsRegs (not_mem_of_mem hi),
    ⟨hw.index (not_mem_of_mem hi), hw.keepsStack (not_mem_of_mem hi), hw.keepsTimers (not_mem_of_mem hi),
      hw.keepsKeys, hw.keepsDisplay (not_mem_of_mem hi), hw.keepsMemory (not_mem_of_mem hi),
      hw.draws (not_mem_of_mem hi)⟩,
    hw.fault_eq (not_mem_of_mem hi)⟩

/-- Settles O55: the stack's own clause tells the slot a CALL writes from the others. -/
theorem frameOfCallAndRet : Obligations.FrameOfCallAndRet := by
  intro i s t hi h
  have hw := writesOnlyItsOwn_of_exec h
  refine ⟨hw.keepsRegs (not_mem_of_mem hi), hw.index (not_mem_of_mem hi), hw.keepsTimers (not_mem_of_mem hi),
    hw.keepsKeys, hw.keepsDisplay (not_mem_of_mem hi), hw.keepsMemory (not_mem_of_mem hi),
    hw.draws (not_mem_of_mem hi), fun k hk => hw.slot k (hk.imp_left fun hret => ?_)⟩
  exact not_mem_of_mem (List.mem_singleton.mpr hret)

/-- Settles O56: with no flag and no load in the group, the one register written is the destination. -/
theorem frameOfFlagFreeRegisterInstructions : Obligations.FrameOfFlagFreeRegisterInstructions := by
  intro i s t hi h
  have hw := writesOnlyItsOwn_of_exec h
  refine ⟨hw.keepsRegsBut fun k hk => ?_, hw.index (not_mem_of_mem hi), hw.keepsStack (not_mem_of_mem hi),
    hw.keepsTimers (not_mem_of_mem hi), hw.keepsKeys, hw.keepsDisplay (not_mem_of_mem hi),
    hw.keepsMemory (not_mem_of_mem hi), hw.fault_eq (not_mem_of_mem hi), fun hne => ?_,
    fun hne => hw.draws (mt List.mem_singleton.mp hne)⟩
  · obtain ⟨-, hflag⟩ | ⟨hx, -⟩ | ⟨-, hload⟩ := hk
    · exact absurd hflag (not_mem_of_mem hi)
    · exact hx
    · exact absurd (List.mem_singleton.mpr hload) (not_mem_of_mem hi)
  · have hpc : ∀ a ∈ ["LD_IMM", "ADD_IMM", "LD_REG", "OR", "AND", "XOR", "RND", "LD_VX_DT", "LD_K"],
        a ≠ "LD_K" → a ∉ pcWriters := by decide
    exact hw.pc_eq (hpc _ hi hne) (not_mem_of_mem hi)

/-- Settles O57: with no load in the group, the registers written are the destination and VF. -/
theorem frameOfFlagWritingInstructions : Obligations.FrameOfFlagWritingInstructions := by
  intro i s t hi h
  have hw := writesOnlyItsOwn_of_exec h
  refine ⟨hw.keepsRegsBut fun k hk => ?_, hw.pc_eq (not_mem_of_mem hi) (not_mem_of_mem hi),
    ⟨hw.index (not_mem_of_mem hi), hw.keepsStack (not_mem_of_mem hi), hw.keepsTimers (not_mem_of_mem hi),
      hw.keepsKeys, hw.keepsDisplay (not_mem_of_mem hi), hw.keepsMemory (not_mem_of_mem hi),
      hw.draws (not_mem_of_mem hi)⟩,
    hw.fault_eq (not_mem_of_mem hi)⟩
  obtain ⟨hvf, -⟩ | ⟨hx, -⟩ | ⟨-, hload⟩ := hk
  · exact .inr hvf
  · exact .inl hx
  · exact absurd (List.mem_singleton.mpr hload) (not_mem_of_mem hi)

/-- Settles O58: the group writes I, DT and ST alone, and each of the three by its own writers. -/
theorem frameOfIndexAndTimerWrites : Obligations.FrameOfIndexAndTimerWrites := by
  intro i s t hi h
  have hw := writesOnlyItsOwn_of_exec h
  exact ⟨hw.keepsRegs (not_mem_of_mem hi), hw.pc_eq (not_mem_of_mem hi) (not_mem_of_mem hi),
    hw.keepsStack (not_mem_of_mem hi), hw.keepsKeys, hw.keepsDisplay (not_mem_of_mem hi),
    hw.keepsMemory (not_mem_of_mem hi), hw.fault_eq (not_mem_of_mem hi), hw.draws (not_mem_of_mem hi),
    fun htimer => hw.index (not_mem_of_mem htimer), fun hne => hw.dt (mt List.mem_singleton.mp hne),
    fun hne => hw.st (mt List.mem_singleton.mp hne)⟩

/-- Settles O60: for each group of registers, the writers that the group's instructions are not. -/
theorem frameOfLoadsDisplayAndKeySkips : Obligations.FrameOfLoadsDisplayAndKeySkips := by
  intro i s t hi h
  have hw := writesOnlyItsOwn_of_exec h
  refine ⟨hw.index (not_mem_of_mem hi), hw.keepsStack (not_mem_of_mem hi), hw.keepsTimers (not_mem_of_mem hi),
    hw.keepsKeys, hw.keepsMemory (not_mem_of_mem hi), hw.draws (not_mem_of_mem hi),
    fun hsome => hw.keepsRegs (not_mem_of_mem hsome), fun hload => hw.keepsRegsBut fun k hk => ?_,
    fun hdraw => hw.keepsRegsBut fun k hk => ?_, fun hsome => hw.keepsDisplay (not_mem_of_mem hsome)⟩
  · have hmem : i.row.mnemonic ∈ ["LD_REGS"] := List.mem_singleton.mpr hload
    obtain ⟨-, hflag⟩ | ⟨hx, -⟩ | ⟨hle, -⟩ := hk
    · exact absurd hflag (not_mem_of_mem hmem)
    · exact hx.le
    · exact hle
  · have hmem : i.row.mnemonic ∈ ["DRW"] := List.mem_singleton.mpr hdraw
    obtain ⟨hvf, -⟩ | ⟨-, hdest⟩ | ⟨-, hload⟩ := hk
    · exact hvf
    · exact absurd hdest (not_mem_of_mem hmem)
    · exact absurd (List.mem_singleton.mpr hload) (not_mem_of_mem hmem)

/-! ### The stores: the bytes outside the block (43_index_memory.md R183, R184, R186) -/

section
variable {i : Instr} {s t : State} {bs : List Byte} {n : Nat}

/-- A store in range writes its block alone, and one out of range writes no memory. -/
theorem keepsMemoryOutside_of_storeAtI (hlen : bs.length = n + 1)
    (hexec : exec i s = withBlock i (n + 1) s (s.storeAtI bs)) (hwf : s.mem.wf = true) (h : exec i s = .next t) :
    KeepsMemoryOutside (s.ea 0) (n + 1) s t := by
  rw [hexec, ← hlen] at h
  rw [← hlen]
  obtain ⟨hr, rfl⟩ | ⟨-, -, rfl⟩ := withBlock_cases h
  · have hend : s.i.toNat + bs.length ≤ Config.memSize := hr.resolve_right (hlen ▸ n.succ_ne_zero)
    exact fun _ hb => Memory.read_writeBytes_outside hwf hend hb
  · exact fun _ _ => rfl

theorem keepsMemory_of_outOfRange {k : State} (hexec : exec i s = withBlock i (n + 1) s k) (h : exec i s = .next t)
    (hr : 4096 ≤ s.ea n) : KeepsMemory s t := by
  rw [exec_outOfRange_of_withBlock hexec hr] at h
  cases h
  exact fun _ => rfl

end

/-- Settles O59: both are stores of a block from I; what they never write, in range or not, follows from the writers
of each element. -/
theorem frameOfMemoryStores : Obligations.FrameOfMemoryStores := by
  intro x s t hwf
  have hrest (i : Instr) (hi : i.row.mnemonic ∈ ["LD_B", "ST_REGS"]) (h : exec i s = .next t) :
      KeepsRegs s t ∧ t.i = s.i ∧ KeepsStack s t ∧ KeepsTimers s t ∧ KeepsKeys s t ∧ KeepsDisplay s t ∧
        t.draws = s.draws := by
    have hw := writesOnlyItsOwn_of_exec h
    exact ⟨hw.keepsRegs (not_mem_of_mem hi), hw.index (not_mem_of_mem hi), hw.keepsStack (not_mem_of_mem hi),
      hw.keepsTimers (not_mem_of_mem hi), hw.keepsKeys, hw.keepsDisplay (not_mem_of_mem hi),
      hw.draws (not_mem_of_mem hi)⟩
  exact ⟨keepsMemoryOutside_of_storeAtI (length_bcdDigits _) (exec_ldB x s) hwf,
    keepsMemoryOutside_of_storeAtI (s.length_regsUpTo x) (exec_stRegs x s) hwf,
    keepsMemory_of_outOfRange (exec_ldB x s), keepsMemory_of_outOfRange (exec_stRegs x s),
    fun h => h.elim (hrest _ (by simp [Instr.row])) (hrest _ (by simp [Instr.row]))⟩

end Sys2Proof.Machine

/-! ## Proofs: the causes of faults, and the steps that complete (60_exceptions.md R240 to R242, 10_state.md R28) -/

namespace Sys2Proof.Machine

/-- Settles O7: the fetch answers the decoded instruction, which the tick runs from the state the fetch leaves. -/
theorem stepRunsTheDecodedInstruction : Obligations.StepRunsTheDecodedInstruction :=
  fun _ _ hf hpc hd => step_of_fetchDecode_ok hf (State.fetchDecode_ok.mpr ⟨hpc, hd⟩)

/-- The condition R240 and R242 give the code of a fault raised at the instruction `s` fetches. -/
def FaultCode.Condition (s : State) : FaultCode → Prop
  | .pcOutOfRange => 4096 ≤ s.pc.toNat + 1
  | .decodeFault => decode s.fetchWord = .error (.invalid s.fetchWord)
  | .stackOverflow => s.sp = 16 ∧ ∃ nnn, decode s.fetchWord = .ok (.call nnn)
  | .stackUnderflow => s.sp = 0 ∧ decode s.fetchWord = .ok .ret
  | .memoryOutOfRange =>
    (∃ x y n, decode s.fetchWord = .ok (.drw x y n) ∧ 0 < n ∧ 4096 ≤ s.i.toNat + n - 1) ∨
      (∃ x, decode s.fetchWord = .ok (.ldB x) ∧ 4096 ≤ s.i.toNat + 2) ∨
      (∃ x, decode s.fetchWord = .ok (.stRegs x) ∧ 4096 ≤ s.i.toNat + x.val) ∨
      ∃ x, decode s.fetchWord = .ok (.ldRegs x) ∧ 4096 ≤ s.i.toNat + x.val
  | .keyIndexOutOfRange =>
    ∃ x, (decode s.fetchWord = .ok (.skp x) ∨ decode s.fetchWord = .ok (.sknp x)) ∧ 15 < (s.getV x).toNat

/-- The cause of a fault, which speaks of the state the fetch leaves, is the table's condition on the state at the
start of the tick: the two differ in pc alone. -/
theorem FaultCause.condition {s : State} {i : Instr} {code : FaultCode} {addr : Option Nat} {value : Option Byte}
    (h : FaultCause s.advance i code addr value) (hd : decode s.fetchWord = .ok i) : code.Condition s := by
  cases h with
  | underflow hsp => exact ⟨hsp, hd⟩
  | overflow nnn hsp => exact ⟨hsp, nnn, hd⟩
  | drw x y n hn hr => exact .inl ⟨x, y, n, hd, hn, Nat.le_sub_one_of_lt hr⟩
  | ldB x hr => exact .inr (.inl ⟨x, hd, Nat.le_of_lt_succ hr⟩)
  | stRegs x hr => exact .inr (.inr (.inl ⟨x, hd, Nat.le_of_lt_succ hr⟩))
  | ldRegs x hr => exact .inr (.inr (.inr ⟨x, hd, Nat.le_of_lt_succ hr⟩))
  | skp x hx => exact ⟨x, .inl hd, hx⟩
  | sknp x hx => exact ⟨x, .inr hd, hx⟩

/-- A tick that latches a record has met the condition of its code. -/
theorem condition_of_latched {s t : State} {r : FaultRecord} (hf : s.fault = none) (h : step s = .next t)
    (hr : t.fault = some r) : r.code.Condition s := by
  obtain hd | ⟨i, code, addr, value, hd, hcause, rfl⟩ := latchedRecord_cases hf h hr
  · obtain ⟨hpc, rfl⟩ | ⟨-, ⟨e, he⟩, rfl⟩ := State.fetchDecode_error hd
    · exact hpc
    · obtain rfl := decode_error_eq_invalid he
      exact he
  · exact hcause.condition (State.fetchDecode_ok.mp hd).2

/-- Settles O13: the statement's table is `FaultCode.Condition`, code by code. -/
theorem faultCodesOnlyWhereTheTableSays : Obligations.FaultCodesOnlyWhereTheTableSays := by
  refine ⟨⟨rfl, rfl, rfl, rfl, rfl, rfl⟩, fun s t r hf h hr => ?_⟩
  have hcondition := condition_of_latched hf h hr
  obtain ⟨code, _, _, _, _⟩ := r
  cases code <;> exact hcondition

/-- Settles O14: without CALL and RET no stop is possible, and the latch is written by none but those that fault. -/
theorem twentySevenInstructionsNeverFault : Obligations.TwentySevenInstructionsNeverFault := by
  intro i s hi
  have hcall : ["CALL", "RET"] ⊆ faulters := by decide
  obtain ⟨t, hexec, heffect⟩ := exec_effect (s := s) fun hcr => absurd (hcall hcr) hi
  exact ⟨t, hexec, heffect.writesOnlyItsOwn.fault_eq hi⟩

theorem exists_next_of_step {s : State} (hsp : s.sp.toNat ≤ 16) : ∃ t, step s = .next t := by
  cases hf : s.fault with
  | some r => exact ⟨s, step_of_fault hf⟩
  | none =>
    cases hd : s.fetchDecode with
    | error r => exact ⟨_, step_of_fetchDecode_error hf hd⟩
    | ok i =>
      obtain ⟨t, hexec, -⟩ := exec_effect (i := i) (s := s.advance) fun _ => hsp
      exact ⟨t, (step_of_fetchDecode_ok hf hd).trans hexec⟩

/-- Settles O15: a latched fault and a fault of the fetch are next states, and so is what a meaning does. -/
theorem stepAnswersNextWhenSpIsLegal : Obligations.StepAnswersNextWhenSpIsLegal := fun _ => exists_next_of_step

end Sys2Proof.Machine

/-! ## Proofs: the invariants (10_state.md R28, 20_memory.md R60, 60_exceptions.md R241, 40_cycle.md R106) -/

namespace Sys2Proof.Machine

/-! ### Fault records of the form R241 gives -/

theorem FaultCause.wellShaped {s : State} {i : Instr} {code : FaultCode} {addr : Option Nat} {value : Option Byte}
    (h : FaultCause s i code addr value) (pc word : Word) :
    (⟨code, pc, some word, addr, value⟩ : FaultRecord).WellShaped := by
  cases h with
  | underflow | overflow => exact ⟨⟨word, rfl⟩, rfl, rfl⟩
  | drw | ldB | stRegs | ldRegs => exact ⟨⟨word, rfl⟩, ⟨_, rfl, Nat.le_max_right _ _⟩, rfl⟩
  | skp x hx | sknp x hx => exact ⟨⟨word, rfl⟩, rfl, _, rfl, hx⟩

theorem State.fetchDecode_error_wellShaped {s : State} {r : FaultRecord} (h : s.fetchDecode = .error r) :
    r.WellShaped := by
  obtain ⟨-, rfl⟩ | ⟨-, -, rfl⟩ := State.fetchDecode_error h
  · exact ⟨rfl, rfl, rfl⟩
  · exact ⟨⟨_, rfl⟩, rfl, rfl⟩

/-! ### The invariant -/

/-- The invariant speaks of memory, SP and the latch alone. -/
theorem State.Inv.of_eq {s t : State} (hs : s.Inv) (hmem : t.mem = s.mem) (hsp : t.sp = s.sp)
    (hfault : t.fault = s.fault) : t.Inv :=
  ⟨hmem ▸ hs.mem, hsp ▸ hs.sp, hfault ▸ hs.fault⟩

theorem State.Inv.commitFault {s : State} (hs : s.Inv) {r : FaultRecord} (hr : r.WellShaped) :
    (s.commitFault r).Inv :=
  ⟨hs.mem, hs.sp, fun _ h => Option.some.inj h ▸ hr⟩

theorem State.Inv.setMem_writeBytes {s : State} (hs : s.Inv) (a : Nat) (bs : List Byte) :
    (s.setMem (s.mem.writeBytes a bs)).Inv :=
  ⟨Memory.writeBytes_wf hs.mem a bs, hs.sp, hs.fault⟩

theorem Effect.inv {i : Instr} {s t : State} (h : Effect s i t) (hs : s.Inv) : t.Inv := by
  cases h with
  | skip i c => exact s.skipIf_eq c ▸ hs.of_eq rfl rfl rfl
  | pop k hk =>
    exact ⟨hs.mem, (State.sp_popPc_toNat hk).trans_le k.isLt.le, hs.fault⟩
  | push nnn k hk =>
    exact ⟨hs.mem, (State.sp_push_toNat hk s.pc).trans_le k.isLt, hs.fault⟩
  | store i bs => exact hs.setMem_writeBytes _ bs
  | fault hcause => exact (hs.of_eq rfl rfl rfl : s.tickStart.Inv).commitFault (hcause.wellShaped _ _)
  | _ => exact hs.of_eq rfl rfl rfl

theorem State.inv_of_step {s t : State} (hs : s.Inv) (h : step s = .next t) : t.Inv := by
  obtain ⟨-, -, rfl⟩ | ⟨-, r, hd, rfl⟩ | ⟨-, i, -, hexec⟩ := step_cases h
  · exact hs
  · exact hs.commitFault (State.fetchDecode_error_wellShaped hd)
  · exact (effect_of_exec hexec).inv (hs.of_eq rfl rfl rfl)

theorem State.resetWith_inv (font : Font) : (State.resetWith font).Inv :=
  ⟨Memory.reset_wf font, Nat.zero_le _, fun _ h => by cases h⟩

/-- Settles O16: the font is canonical memory, SP is 0 and no record is latched. -/
theorem invariantHoldsAtReset : Obligations.InvariantHoldsAtReset := ⟨State.resetWith_inv _, State.resetWith_inv⟩

/-- Settles O22: it is the command's own equation. -/
theorem resetCommandRestoresEverything : Obligations.ResetCommandRestoresEverything := command_reset

/-- Settles O17: each shape of update keeps the invariant. -/
theorem stepKeepsInvariant : Obligations.StepKeepsInvariant := fun _ _ => State.inv_of_step

/-! ### The bound on pc (R106) -/

theorem State.PcBound.of_eq {s t : State} (hs : s.PcBound) (hpc : t.pc = s.pc) (hstack : t.stack = s.stack) :
    t.PcBound :=
  ⟨hpc ▸ hs.pc, fun k => by rw [State.slot, hstack]; exact hs.stack k⟩

theorem State.PcBound.setPc {s : State} (hs : s.PcBound) {w : Word} (hw : w.toNat ≤ 0x10FE) : (s.setPc w).PcBound :=
  ⟨hw, hs.stack⟩

/-- What the fetch leaves has pc between 2 and 0x1000, which a skip, a repeat, a fault and a push keep in bounds. -/
theorem Effect.pcBound {i : Instr} {s t : State} (h : Effect s i t) (hlow : 2 ≤ s.pc.toNat)
    (hhigh : s.pc.toNat ≤ 0x1000) (hs : s.PcBound) : t.PcBound := by
  have hback : (s.pc - 2).toNat ≤ 0x0FFE := by bv_omega
  cases h with
  | jump i w hi hw => exact hs.setPc hw
  | skip i c =>
    rw [State.skipIf_eq]
    refine hs.setPc ?_
    split
    · bv_omega
    · omega
  | wait x => exact hs.setPc (hback.trans (by decide))
  | pop k => exact ⟨(hs.stack k).trans (by decide), hs.stack⟩
  | push nnn k =>
    refine ⟨?_, fun j => ?_⟩
    · rw [State.setPc_pc, zextAddr_toNat]
      omega
    · show ((s.push k s.pc).slot j).toNat ≤ 0x1000
      rw [State.slot_push]
      split
      · exact hhigh
      · exact hs.stack j
  | fault => exact ⟨hback.trans (by decide), hs.stack⟩
  | _ => exact hs.of_eq rfl rfl

theorem State.pcBound_of_step {s t : State} (hs : s.PcBound) (h : step s = .next t) : t.PcBound := by
  obtain ⟨-, -, rfl⟩ | ⟨-, r, -, rfl⟩ | ⟨-, i, hd, hexec⟩ := step_cases h
  · exact hs
  · exact hs.of_eq rfl rfl
  · have hpc : s.pc.toNat + 1 < 4096 := (State.fetchDecode_ok.mp hd).1
    have hadvance : s.advance.pc.toNat = s.pc.toNat + 2 := by
      show (s.pc + 2).toNat = s.pc.toNat + 2
      bv_omega
    exact (effect_of_exec hexec).pcBound (by omega) (by omega) ⟨by omega, hs.stack⟩

theorem State.resetWith_pcBound (font : Font) : (State.resetWith font).PcBound :=
  ⟨show 0x200 ≤ 0x10FE by decide, fun k => by rw [State.resetWith_slot]; decide⟩

/-- Settles O19: the fetch bounds pc, and each shape of update then keeps both bounds. -/
theorem stepKeepsPcBound : Obligations.StepKeepsPcBound := fun _ _ => State.pcBound_of_step

/-! ### The host commands (R254, R255) -/

section
variable {font : Font} {c : Command} {s t : State} {reply : Reply}

/-- A command other than a tick always completes; a tick completes when SP is legal. -/
theorem exists_next_of_command (font : Font) (c : Command) (hsp : s.sp.toNat ≤ 16) :
    ∃ t reply, command font c s = .next (t, reply) := by
  cases c with
  | tick =>
    obtain ⟨t, hstep⟩ := exists_next_of_step hsp
    exact ⟨t, _, command_tick_of_step font hstep⟩
  | load | reset | tickTimers | getDisplay | keypress => exact ⟨_, _, rfl⟩

/-- All a command can do to the state: a tick; the reset; a write of memory, by `load`; or a change of the timers and
the keypad alone, if of anything. -/
theorem command_cases (h : command font c s = .next (t, reply)) :
    step s = .next t ∨ t = { State.resetWith font with draws := s.draws } ∨
      (∃ a bs, t = s.setMem (s.mem.writeBytes a bs)) ∨ t = { s with dt := t.dt, st := t.st, keys := t.keys } := by
  cases c with
  | load bytes =>
    by_cases hlen : bytes.length ≤ Config.maxImage
    · rw [command_load hlen] at h
      cases h
      exact .inr (.inr (.inl ⟨_, _, rfl⟩))
    · rw [command_load_of_tooLarge (Nat.lt_of_not_le hlen)] at h
      cases h
      exact .inr (.inr (.inr rfl))
  | reset =>
    rw [command_reset] at h
    cases h
    exact .inr (.inl rfl)
  | tick =>
    rw [command] at h
    split at h
    · cases h
      exact .inl ‹_›
    · cases h
    · cases h
  | tickTimers | getDisplay =>
    cases h
    exact .inr (.inr (.inr rfl))
  | keypress index pressed =>
    by_cases hindex : index < 16
    · have hset : command font (.keypress index pressed) s = .next (s.setKey ⟨index, hindex⟩ pressed, .ok) :=
        command_keypress font ⟨index, hindex⟩ pressed s
      rw [hset] at h
      cases h
      exact .inr (.inr (.inr rfl))
    · rw [command_keypress_of_outOfRange (Nat.lt_of_not_le (mt Nat.lt_succ_of_le hindex))] at h
      cases h
      exact .inr (.inr (.inr rfl))

theorem State.inv_of_command (hs : s.Inv) (h : command font c s = .next (t, reply)) : t.Inv := by
  obtain hstep | rfl | ⟨a, bs, rfl⟩ | ht := command_cases h
  · exact State.inv_of_step hs hstep
  · exact (State.resetWith_inv font).of_eq rfl rfl rfl
  · exact hs.setMem_writeBytes a bs
  · exact ht ▸ hs.of_eq rfl rfl rfl

theorem State.pcBound_of_command (hs : s.PcBound) (h : command font c s = .next (t, reply)) : t.PcBound := by
  obtain hstep | rfl | ⟨a, bs, rfl⟩ | ht := command_cases h
  · exact State.pcBound_of_step hs hstep
  · exact (State.resetWith_pcBound font).of_eq rfl rfl
  · exact hs.of_eq rfl rfl
  · exact ht ▸ hs.of_eq rfl rfl

end

/-- Settles O18: a tick keeps the invariant, the reset restores it, `load` writes memory through a block write, and
the others touch nothing it speaks of. -/
theorem everyCommandKeepsInvariant : Obligations.EveryCommandKeepsInvariant := fun _ _ _ _ _ => State.inv_of_command

/-- R255: from a state with both invariants a sequence of commands completes, with one reply each, in a state with
both. -/
theorem runCommands_completes (font : Font) (cs : List Command) {s : State} (hinv : s.Inv) (hpc : s.PcBound) :
    ∃ t replies, runCommands font cs s = .next (t, replies) ∧ replies.length = cs.length ∧ t.Inv ∧ t.PcBound := by
  induction cs generalizing s with
  | nil => exact ⟨s, [], rfl, rfl, hinv, hpc⟩
  | cons c cs ih =>
    obtain ⟨t, reply, hc⟩ := exists_next_of_command font c hinv.sp
    obtain ⟨u, replies, hcs, hlen, hu⟩ := ih (State.inv_of_command hinv hc) (State.pcBound_of_command hpc hc)
    exact ⟨u, reply :: replies, runCommands_cons hc hcs, congrArg Nat.succ hlen, hu⟩

/-- Settles O20: both invariants hold after reset, and every command completes and keeps them. -/
theorem everyCommandSequenceCompletesWithinPcBound : Obligations.EveryCommandSequenceCompletesWithinPcBound := by
  intro font cs
  obtain ⟨t, replies, hrun, hlen, hinv, hpc⟩ :=
    runCommands_completes font cs (State.resetWith_inv font) (State.resetWith_pcBound font)
  exact ⟨t, replies, hrun, hlen, hpc.pc, hinv⟩

end Sys2Proof.Machine

/-! ## Proofs: what is stored is what is loaded, fetched and run (20_memory.md R65, R74, 43_index_memory.md) -/

namespace Sys2Proof.Machine

/-- After an instruction that stores a list from I in range, byte k of the list is read at I + k. -/
theorem read_of_exec_storeAtI {i : Instr} {s t : State} {bs : List Byte} {n : Nat} (hlen : bs.length = n)
    (hexec : exec i s = withBlock i n s (s.storeAtI bs)) (hwf : s.mem.wf = true)
    (hr : s.i.toNat + n ≤ Config.memSize) (h : exec i s = .next t) (k : Nat) (hk : k < bs.length) :
    t.mem.read (s.i.toNat + k) = bs[k] := by
  obtain ⟨t', ht', -, hread, -⟩ := exists_next_of_storeAtI hlen hexec hwf hr
  rw [h] at ht'
  cases ht'
  exact hread k hk

/-- After Fx55 in range, V[k] is read at I + k. -/
theorem read_of_exec_stRegs {s t : State} {x : RegIx} (hwf : s.mem.wf = true) (hr : s.i.toNat + x.val < 4096)
    (h : exec (.stRegs x) s = .next t) {k : RegIx} (hk : k ≤ x) : t.mem.read (s.i.toNat + k.val) = s.getV k := by
  have hlt : k.val < (s.regsUpTo x).length := (s.length_regsUpTo x).symm ▸ Nat.lt_succ_of_le hk
  rw [read_of_exec_storeAtI (s.length_regsUpTo x) (exec_stRegs x s) hwf hr h k hlt, State.getElem_regsUpTo]

/-- Settles O39: the store puts each register at its own address, and the load takes each from there. -/
theorem storeThenLoadRestoresRegisters : Obligations.StoreThenLoadRestoresRegisters := by
  intro x s t u hwf hr h hui hmem
  obtain ⟨-, hload, -⟩ := registersAreLoaded
  have hti : t.i = s.i := (writesOnlyItsOwn_of_exec h).index (by simp [Instr.row])
  have hi : u.i = s.i := hui.trans hti
  obtain ⟨v, hexec, -, hv, -⟩ := hload x u (hi ▸ hr)
  refine ⟨v, hexec, fun k hk => ?_⟩
  rw [hv k hk, hi, hmem, read_of_exec_stRegs hwf hr h hk]

/-- R101 to R103: a tick runs the instruction that the two bytes at pc spell. -/
theorem step_of_reads {s : State} {i : Instr} {hi lo : Byte} (hf : s.fault = none) (hpc : s.pc.toNat + 1 < 4096)
    (hhi : s.mem.read s.pc.toNat = hi) (hlo : s.mem.read (s.pc.toNat + 1) = lo)
    (hd : decode (wordOfBytes hi lo) = .ok i) : step s = exec i { s with pc := s.pc + 2 } := by
  have hword : decode s.fetchWord = .ok i := by rw [State.fetchWord, hhi, hlo, hd]
  exact step_of_fetchDecode_ok hf (State.fetchDecode_ok.mpr ⟨hpc, hword⟩)

/-- After the load of an image that fits, byte k of it is read at 0x200 + k, and nothing but memory has changed. -/
theorem read_of_command_load {font : Font} {bytes : List Byte} {s t : State} {reply : Reply} (hwf : s.mem.wf = true)
    (hlen : bytes.length ≤ 3584) (h : command font (.load bytes) s = .next (t, reply)) :
    t = { s with mem := t.mem } ∧
      ∀ (k : Nat) (hk : k < bytes.length), t.mem.read (0x200 + k) = bytes[k] := by
  obtain ⟨hload, -⟩ := loadCopiesTheImageOrRefuses
  obtain ⟨t', ht', hframe, hread, -⟩ := hload font bytes s hwf hlen
  rw [h] at ht'
  cases ht'
  exact ⟨hframe, hread⟩

/-- Settles O51: the fetch reads memory as it stands, which holds what the three have stored; and a tick runs what the
two bytes at its pc spell. -/
theorem tickRunsWhatWasLoaded : Obligations.TickRunsWhatWasLoaded := by
  refine ⟨fun font bytes s t u reply hwf hlen h hmem k hk => ?_, fun x s t u hwf hr h hmem k hk => ?_,
    fun x s t u hwf hr h hmem => ?_, fun font hi lo i s t reply hwf hf hpc hd h => ?_,
    fun x k k' i s t u hwf hr h hk' hk'x hd hmem hf hpc => ?_⟩
  · exact State.fetchesAt (hmem ▸ (read_of_command_load hwf hlen h).2 k hk)
  · exact State.fetchesAt (hmem ▸ read_of_exec_stRegs hwf hr h hk)
  · have hread := read_of_exec_storeAtI (length_bcdDigits _) (exec_ldB x s) hwf hr h
    exact ⟨State.fetchesAt (hmem ▸ hread 0 (by simp)), State.fetchesAt (hmem ▸ hread 1 (by simp)),
      State.fetchesAt (hmem ▸ hread 2 (by simp))⟩
  · obtain ⟨hframe, hread⟩ := read_of_command_load hwf (by simp) h
    have htpc : t.pc = 0x200 := by rw [hframe, hpc]
    have htf : t.fault = none := by rw [hframe, hf]
    have hstep := step_of_reads (s := t) htf (by rw [htpc]; decide) (by rw [htpc]; exact hread 0 (by simp))
      (by rw [htpc]; exact hread 1 (by simp)) hd
    rw [hstep, htpc]
    rfl
  · have hk'le : k'.val ≤ x.val := hk'x
    have hkx : k.val ≤ x.val := by omega
    refine step_of_reads hf (by omega) ?_ ?_ hd
    · rw [hpc, hmem, read_of_exec_stRegs hwf hr h hkx]
    · rw [hpc, hmem, Nat.add_assoc, ← hk', read_of_exec_stRegs hwf hr h hk'x]

end Sys2Proof.Machine

/-! ## Proofs: a sprite drawn twice (44_display.md R203) -/

namespace Sys2Proof.Machine

/-- With coordinates that are not in VF, a second draw covers the same cells as the first: both flip them, and the
others keep their values. -/
theorem State.drawSprite_drawSprite_display (s : State) {x y : RegIx} {n : Nat} (hx : x ≠ vf) (hy : y ≠ vf)
    (hn : n ≤ 32) : ((s.drawSprite x y n).drawSprite x y n).display = s.display := by
  have hfirst := s.display.lit_draw s.mem s.i.toNat (s.getV x) (s.getV y) hn
  have hsecond := (s.drawSprite x y n).display.lit_draw s.mem s.i.toNat (s.getV x) (s.getV y) hn
  apply Display.ext_lit
  intro c r
  rw [State.drawSprite_display, State.getV_drawSprite_of_ne s x y n hx, State.getV_drawSprite_of_ne s x y n hy]
  by_cases hcov : SpriteCovers s.mem s.i.toNat (s.getV x) (s.getV y) n c r
  · calc _ = !(s.drawSprite x y n).display.lit c r := (hsecond c r).1 hcov
      _ = !!s.display.lit c r := congrArg _ ((hfirst c r).1 hcov)
      _ = s.display.lit c r := Bool.not_not _
  · exact ((hsecond c r).2 hcov).trans ((hfirst c r).2 hcov)

/-- Settles O42: the second draw restores the cells, so the cells it unlights are those the first has lit. -/
theorem drawingTwiceRestoresTheScreen : Obligations.DrawingTwiceRestoresTheScreen := by
  intro x y n s hx hy hn hr
  have hrows : n ≤ 32 := by omega
  have hdisplay := s.drawSprite_drawSprite_display hx hy hrows
  refine ⟨_, _, exec_drw_inRange hr x y, exec_drw_inRange (s := s.drawSprite x y n) hr x y, hdisplay, ?_⟩
  rw [State.getV_vf_drawSprite_eq_one_iff _ x y hrows, hdisplay]
  simp only [and_comm]

end Sys2Proof.Machine
